-- ==== Sys2Proof/Word.lean ====
section
/-! DEFINITION. The word types of PX8PACK (00_scope.md R6, R8): command words, row bytes, pixels, and the host's text. -/

namespace Sys2Proof

/-- A command word, presented whole on the command port (R50; CMDW = 32, R6). -/
abbrev Word := BitVec 32

/-- A row byte (R9; BYTE_W = 8, R6). -/
abbrev Byte := BitVec 8

/-- A 24-bit colour R ∥ G ∥ B, R in bits [23:16], G in [15:8], B in [7:0]: a lane value, INK and a grid cell share
this packing (R11, R17, R33; PIXW = 24, R6). The block never takes one apart (R33). -/
abbrev Pixel := BitVec 24

/-- A string of the host rules, "sequences of characters" (R8). -/
abbrev Text := List Char

end Sys2Proof
end

