-- ==== Sys2Proof/Config.lean ====
section
/-! DEFINITION. What is fixed for the machine and its host (00_scope.md R6). PX8PACK leaves no result of a command
open, so there is no free value here; the grid and the labels are parameters of a run (R7), held in State or taken as
arguments. -/

namespace Sys2Proof

/-- INK's reset value: the document's default, black (R6, R17). -/
def Config.inkReset : Pixel := 0x000000#24

/-- PREFIX, the token before the label: "gfx", fixed (R6, R115). -/
def Config.labelToken : Text := ['g', 'f', 'x']

/-- KWGAP, the gap after the keyword: four spaces, fixed, not a parameter (R6, R115, R119). -/
def Config.keywordGap : Text := [' ', ' ', ' ', ' ']

/-- What a grid cell that is not listed in `Grid.cells` reads as. DESIGN CHOICE (log 3): it only fixes how a grid is
written down; every grid has exactly one canonical list whatever this colour is. Safe. -/
def Config.unlistedCell : Pixel := 0x000000#24

/-- The formatter's configuration surface, with the document's defaults (R6, R115), and the platform's one OPEN
parameter LINE_END with its default (R130, D27). -/
structure FormatParams where
  /-- COLW, the label column width. -/
  colw : Nat := 16
  /-- KEYWORD, the data-declaration keyword. -/
  keyword : Text := ['d', 'e', 'f', 'b']
  /-- LINE_END, what the sink puts after each line. -/
  lineEnd : Text := ['\n']
  deriving DecidableEq, Repr

end Sys2Proof
end

