-- ==== Sys2Proof/Syntax.lean ====
section
/-! DEFINITION. The seven commands of PX8PACK command set 1, one constructor per row of the opcode map
(30_encoding.md R56, R57), their operands already pulled out of the word (R55). -/

namespace Sys2Proof

/-- A decoded command. `ILLEGAL` is no command: it is `decode`'s refusal (R57, R58). -/
inductive Instr where
  /-- SETINK rgb: set the ink colour (R101). -/
  | setInk (rgb : Pixel)
  /-- SETLIM n: set the label count (R102). -/
  | setLim (n : BitVec 16)
  /-- START: begin a run; also the return from a fault (R103, R148). -/
  | start
  /-- END: finish a run (R104). -/
  | endRun
  /-- LDPX lane, rgb: load one lane from the command word (R71). -/
  | ldPx (lane : Fin 8) (rgb : Pixel)
  /-- LDROW: load all eight lanes from the grid row at the scan position (R72). -/
  | ldRow
  /-- PACK: compare, weight, append, finalize (R84). -/
  | pack
  deriving DecidableEq, Repr

end Sys2Proof
end

