-- ==== Sys2Proof/WellFormed.lean ====
section
/-! DEFINITION. The operand ranges of the commands (30_encoding.md R51 to R55, R60), as checks on plain numbers. The
assembler applies them to the numbers it reads; an `Instr` meets them by its types. -/

namespace Sys2Proof

/-- A lane is a number 0..7 (R54, R60). -/
def laneOk (n : Nat) : Bool := decide (n ≤ 7)

/-- A label count is a number 0..65535 (R53, R60). -/
def numberOk (n : Nat) : Bool := decide (n ≤ 65535)

/-- A colour is 24 bits (R52, R54). -/
def colourOk (n : Nat) : Bool := decide (n < 16777216)

/-- Every operand of the command is in the range its format gives it. -/
def Instr.wellFormed : Instr → Bool
  | .setInk rgb => colourOk rgb.toNat
  | .setLim n => numberOk n.toNat
  | .start => true
  | .endRun => true
  | .ldPx lane rgb => laneOk lane.val && colourOk rgb.toNat
  | .ldRow => true
  | .pack => true

end Sys2Proof
end

