-- ==== Sys2Proof/Decode.lean ====
section
/-! DEFINITION. Command decode and encode (30_encoding.md R50 to R59). `decode` is total on all 2^32 words and rejects
an illegal word by name; `encode` writes the word of a command from the same tables. -/

namespace Sys2Proof

/-- Why a word is illegal: the three classes R58 lists. Every one of them is the same IllegalCommand to the block. -/
inductive Illegal where
  /-- w[31:24] is in no row of the opcode map (R58, first class). -/
  | unassignedOpcode
  /-- Format Z with w[23:0] not zero (R51, R58). -/
  | operandBitsNotZero
  /-- Format N with w[23:16] not zero (R53, R58). -/
  | highByteNotZero
  deriving DecidableEq, Repr

/-- w[31:24], the opcode byte (R50). -/
def opcodeField (w : Word) : BitVec 8 := w.extractLsb' 24 8

/-- `rgb = w[23:0]` of formats C and L (R55). -/
def colourField (w : Word) : Pixel := w.extractLsb' 0 24

/-- `n = w[15:0]` of format N (R55). -/
def numberField (w : Word) : BitVec 16 := w.extractLsb' 0 16

/-- `lane = w[26:24]` of format L (R55). -/
def laneField (w : Word) : Fin 8 := ⟨(w.extractLsb' 24 3).toNat, (w.extractLsb' 24 3).isLt⟩

/-- The mask of a command's row of the opcode map (R56). -/
def maskOf : Instr → Word
  | .setInk _ => 0xFF000000#32
  | .setLim _ => 0xFFFF0000#32
  | .start => 0xFFFFFFFF#32
  | .endRun => 0xFFFFFFFF#32
  | .ldPx _ _ => 0xF8000000#32
  | .ldRow => 0xFFFFFFFF#32
  | .pack => 0xFFFFFFFF#32

/-- The match of a command's row of the opcode map (R56). -/
def patternOf : Instr → Word
  | .setInk _ => 0x01000000#32
  | .setLim _ => 0x02000000#32
  | .start => 0x03000000#32
  | .endRun => 0x04000000#32
  | .ldPx _ _ => 0x10000000#32
  | .ldRow => 0x20000000#32
  | .pack => 0x21000000#32

/-- Which of R58's classes an illegal word belongs to. -/
def illegalClass (w : Word) : Illegal :=
  if opcodeField w = 0x03#8 ∨ opcodeField w = 0x04#8 ∨ opcodeField w = 0x20#8 ∨ opcodeField w = 0x21#8 then
    .operandBitsNotZero
  else if opcodeField w = 0x02#8 then .highByteNotZero
  else .unassignedOpcode

/-- `Decode(w)` (R57), in the order of its lines. -/
def decode (w : Word) : Except Illegal Instr :=
  if w &&& 0xFF000000#32 = 0x01000000#32 then .ok (.setInk (colourField w))
  else if w &&& 0xFFFF0000#32 = 0x02000000#32 then .ok (.setLim (numberField w))
  else if w = 0x03000000#32 then .ok .start
  else if w = 0x04000000#32 then .ok .endRun
  else if w &&& 0xF8000000#32 = 0x10000000#32 then .ok (.ldPx (laneField w) (colourField w))
  else if w = 0x20000000#32 then .ok .ldRow
  else if w = 0x21000000#32 then .ok .pack
  else .error (illegalClass w)

/-- The word of a command, from the formats R51 to R54 and the opcodes of R56. -/
def encode : Instr → Word
  | .setInk rgb => 0x01#8 ++ rgb
  | .setLim n => 0x02#8 ++ (0x00#8 ++ n)
  | .start => 0x03#8 ++ 0x000000#24
  | .endRun => 0x04#8 ++ 0x000000#24
  | .ldPx lane rgb => 0b00010#5 ++ (BitVec.ofNat 3 lane.val ++ rgb)
  | .ldRow => 0x20#8 ++ 0x000000#24
  | .pack => 0x21#8 ++ 0x000000#24

/-- The command word of an opcode-table row: `w` holds the row's `nbits` bits, any bit above them is zero. A command
word is presented whole (R50), so there is no byte order to lay it out in (R33), and no command is longer than 32
bits. -/
def tableWord (nbits w : Nat) : Word := BitVec.ofNat 32 (w % 2 ^ nbits)

/-- The command the decoder reads from an opcode-table row's word; none where it refuses. -/
def decodeTableWord (nbits w : Nat) : Option Instr :=
  if nbits ≤ 32 then (decode (tableWord nbits w)).toOption else none

end Sys2Proof
end

