-- ==== Sys2Proof/Machine/State.lean ====
section
/-! DEFINITION. The state of PX8PACK (10_state.md R10 to R25), what surrounds the block (the pixel grid, the output
stream, the words and events still to be presented), the state after reset, and the reasons a step of the MODEL can
stop. The four faults of the block are no stops: they are recorded in STATUS and FINFO (R136). -/

namespace Sys2Proof.Machine

/-- STATUS.FCODE, the code of the recorded fault (R20, R135). Codes 5 to 7 are never written (R20); V4 lets a model
make them unrepresentable. -/
inductive FCode where
  /-- 0: none. -/
  | noFault
  /-- 1: OutOfLabels (R137). -/
  | outOfLabels
  /-- 2: GridRange (R138). -/
  | gridRange
  /-- 3: IllegalCommand (R139). -/
  | illegalCommand
  /-- 4: LaneUndefined (R140). -/
  | laneUndefined
  deriving DecidableEq, Repr

/-- CR3 STATUS by its fields (R20). The reserved bits [31:9] read as zero and nothing writes them, so they are not
held (V4, log 7); `Status.word` is the 32-bit register. -/
structure Status where
  /-- Bit [0]: a fault is recorded. -/
  fault : Bool
  /-- Bits [3:1]: the code of the recorded fault. -/
  fcode : FCode
  /-- Bit [4]: PartialTileDiscarded. -/
  ptd : Bool
  /-- Bits [7:5]: how many rows END dropped. -/
  ptdrows : BitVec 3
  /-- Bit [8]: END has completed. -/
  done : Bool
  deriving DecidableEq, Repr

/-- One TILE record (R40), the two-field form: the tile index and the eight row bytes, b[0] the top row. -/
structure Tile where
  idx : BitVec 16
  b : Vector Byte 8
  deriving DecidableEq, Repr

/-- One listed cell of the pixel grid: column x, row y, its colour (R30, R31, R33). -/
structure GridCell where
  x : Nat
  y : Nat
  rgb : Pixel
  deriving DecidableEq, Repr

/-- The pixel grid of the ImageSource (R30): W, H, and its cells as a list in one canonical form (`Memory.wf`); a
cell inside W x H that is not listed reads as `Config.unlistedCell` (log 3). It is a parameter of a run, not state of
the block (R7); it stands here so that a step can read it (log 2). -/
structure Grid where
  width : Nat
  height : Nat
  cells : List GridCell
  deriving DecidableEq, Repr

/-- What the parties around the block present to it, one at a time (R7, R164). MODEL'S own (log 1): the spec leaves
delivery to the host. -/
inductive Input where
  /-- The host presents one command word (R42, R65). -/
  | word (w : Word)
  /-- Two words presented at once: no meaning (V8, log 10). -/
  | twoWords (a b : Word)
  /-- The reset event; a word presented during it is not executed (R160, log 9). -/
  | reset (during : Option Word)
  /-- The platform attaches a grid, or replaces it as a whole (R37, R162, log 11). -/
  | attach (g : Grid)
  /-- The platform changes one cell of the attached grid (R37, log 11, log 12). -/
  | setCell (x y : Nat) (rgb : Pixel)
  deriving DecidableEq, Repr

/-- The machine: the block's complete architectural state (R10), then its surroundings (R7). `none` in a lane or in a
tile-buffer entry is the spec's own `novalue` (R8). -/
structure State where
  /-- PX[0..7], the lane registers (R11). -/
  px : Vector (Option Pixel) 8
  /-- PXV, the lane valid bits (R12). -/
  pxv : BitVec 8
  /-- ROWCNT, rows in the current tile's buffer (R14). -/
  rowcnt : BitVec 3
  /-- TILEIDX, the index of the tile being accumulated (R15). -/
  tileidx : BitVec 16
  /-- TBUF[0..7], the tile buffer (R16). -/
  tbuf : Vector (Option Byte) 8
  /-- CR0 INK (R17). -/
  ink : Pixel
  /-- CR1 LIMIT (R18). -/
  limit : BitVec 16
  /-- CR3 STATUS (R20). -/
  status : Status
  /-- CR4 FINFO (R21). -/
  finfo : BitVec 32
  /-- The pixel grid (R30); surroundings. -/
  grid : Grid
  /-- OUT, the TILE records emitted so far, oldest first (R39); surroundings. -/
  out : List Tile
  /-- The words and events still to be presented, the next one first (R42); surroundings. -/
  inputs : List Input
  deriving DecidableEq, Repr

/-- Why a step of the model stops with a fault. No command word raises one in a state that keeps the invariants
(`State.Inv`). -/
inductive Fault where
  /-- PACK, PXV = 0xFF, but a lane holds no value: the read R8 says "a model must make ... impossible or a fault"
  (V2). Raised by `execPack` only in states that break R12, which no run reaches. Safe (log 6). -/
  | novalueLane
  /-- An ImageSource event (`Input.setCell`) that names a cell outside the grid: there is no such cell to change
  (R30). Never raised by a command. Safe (log 12). -/
  | absentCell
  deriving DecidableEq, Repr

/-- Why a step of the model has no meaning. -/
inductive Refusal where
  /-- The instruction has no meaning yet. Raised by no arm of `exec` now; safe. -/
  | notModelled (mnemonic : String)
  /-- PACK's finalize would read a tile-buffer entry that holds no value: V3 says "`refuse` any model step that would
  read one". Raised by `finalize` only in states that break R27 (i), which no run reaches. Safe (log 6). -/
  | novalueTileByte
  /-- Two words presented at once: V8 says "`refuse`: no meaning". Raised by the port, never by a command. Safe
  (log 10). -/
  | twoWordsAtOnce
  deriving DecidableEq, Repr

/-- STATUS with every field cleared: 0x00000000 (R25). -/
def Status.clear : Status :=
  { fault := false, fcode := .noFault, ptd := false, ptdrows := 0#3, done := false }

/-- Eight lanes that hold no value (R25). -/
def novalueLanes : Vector (Option Pixel) 8 := Vector.replicate 8 none

/-- The empty tile buffer (R16, R25). -/
def novalueBytes : Vector (Option Byte) 8 := Vector.replicate 8 none

/-- No grid attached: W = H = 0, so every GridRead answers notadmitted (R32; log 2). -/
def Grid.unattached : Grid := { width := 0, height := 0, cells := [] }

/-- The machine right after reset (R25, R160). The block's fields have the spec's values; the surroundings are no
state of the block, and here no grid is attached (DESIGN CHOICE, log 2), OUT holds nothing (DESIGN CHOICE, log 4) and
nothing waits to be presented (DESIGN CHOICE, log 1). -/
def State.reset : State :=
  { px := novalueLanes
    pxv := 0x00#8
    rowcnt := 0#3
    tileidx := 0#16
    tbuf := novalueBytes
    ink := Config.inkReset
    limit := 0#16
    status := Status.clear
    finfo := 0#32
    grid := Grid.unattached
    out := []
    inputs := [] }

end Sys2Proof.Machine
end

