-- ==== Sys2Proof/Machine/Flags.lean ====
section
/-! DEFINITION. The comparators, the weight network and the status bits of PX8PACK (10_state.md R20, R22;
42_pack.md R80 to R83). -/

namespace Sys2Proof.Machine

/-- `eq24(a, b)`: 1 when the two 24-bit values agree in every bit, else 0 (R8, R81). -/
def eq24 (a b : Pixel) : Nat := if a = b then 1 else 0

/-- The columns of a row, 0 leftmost to 7 (R46). -/
def columns : List (Fin 8) := [0, 1, 2, 3, 4, 5, 6, 7]

/-- WEIGHT(x) = 2^(7-x), fixed wiring (R6, R82; conflict C1: the leftmost column is the most significant bit). -/
def weight (x : Fin 8) : Nat := 2 ^ (7 - x.val)

/-- Pack8 before it is narrowed: the exact sum over the eight columns (R80). -/
def weightedSum (ink : Pixel) (p : Vector Pixel 8) : Nat :=
  (columns.map (fun x => eq24 p[x] ink * weight x)).sum

/-- `Pack8(ink, p)`, an unsigned 8-bit number (R80). It cannot overflow (R83 (b)). -/
def pack8 (ink : Pixel) (p : Vector Pixel 8) : Byte := BitVec.ofNat 8 (weightedSum ink p)

/-- M[x], comparator x's output bit (R22, R81). -/
def matchBit (ink : Pixel) (p : Vector Pixel 8) (x : Fin 8) : BitVec 1 := BitVec.ofNat 1 (eq24 p[x] ink)

/-- The row byte as plain wiring, M[0] ∥ M[1] ∥ ... ∥ M[7] (R82). -/
def wiredByte (ink : Pixel) (p : Vector Pixel 8) : Byte :=
  matchBit ink p 0 ++ matchBit ink p 1 ++ matchBit ink p 2 ++ matchBit ink p 3
    ++ matchBit ink p 4 ++ matchBit ink p 5 ++ matchBit ink p 6 ++ matchBit ink p 7

/-- The row byte as an OR network: the bitwise OR of the selected weights (R83 (a)). -/
def orByte (ink : Pixel) (p : Vector Pixel 8) : Byte :=
  (columns.map (fun x => BitVec.ofNat 8 (eq24 p[x] ink * weight x))).foldl (· ||| ·) 0x00#8

/-- The 3-bit number of a fault code (R20, R135). -/
def FCode.code : FCode → BitVec 3
  | .noFault => 0#3
  | .outOfLabels => 1#3
  | .gridRange => 2#3
  | .illegalCommand => 3#3
  | .laneUndefined => 4#3

/-- CR3 STATUS as the 32-bit register the host sees: DONE [8], PTDROWS [7:5], PTD [4], FCODE [3:1], FAULT [0], the
reserved bits [31:9] zero (R20). -/
def Status.word (t : Status) : BitVec 32 :=
  0#23 ++ BitVec.ofBool t.done ++ t.ptdrows ++ BitVec.ofBool t.ptd ++ t.fcode.code ++ BitVec.ofBool t.fault

/-- STOPPED mode: STATUS.FAULT = 1 or STATUS.DONE = 1; otherwise RUN (R141). -/
def State.stopped (s : State) : Bool := s.status.fault || s.status.done

end Sys2Proof.Machine
end

