-- ==== Sys2Proof/Machine/Ops.lean ====
section
/-! DEFINITION. The named operations over registers and over the two memory spaces, and the one way a fault is
recorded and left (20_memory.md R30 to R41; 60_exceptions.md R136, R147, R148). -/

namespace Sys2Proof.Machine

/-! ### The pixel grid (the read space) -/

/-- Cell (x, y) stands before the listed cell `c` in the order of the list: row first, then column. -/
def cellBefore (x y : Nat) (c : GridCell) : Bool := decide (y < c.y) || (decide (y = c.y) && decide (x < c.x))

/-- The listed cells rise strictly in (y, x). -/
def cellsRising : List GridCell → Bool
  | [] => true
  | [_] => true
  | a :: b :: rest => cellBefore a.x a.y b && cellsRising (b :: rest)

/-- The canonical form of the grid: strictly rising, inside W x H, and no cell equal to what an unlisted cell reads as
(log 3). Equal grids are equal data. -/
def Memory.wf (g : Grid) : Bool :=
  cellsRising g.cells
    && g.cells.all (fun c => decide (c.x < g.width) && decide (c.y < g.height) && decide (c.rgb ≠ Config.unlistedCell))

/-- Admission: x < W and y < H (R32). -/
def Grid.admits (g : Grid) (x y : Nat) : Bool := decide (x < g.width) && decide (y < g.height)

/-- GRID(x, y) as the list gives it, admitted or not. -/
def cellColour (x y : Nat) : List GridCell → Pixel
  | [] => Config.unlistedCell
  | c :: rest => if c.x = x ∧ c.y = y then c.rgb else cellColour x y rest

/-- `get(x, y)` of the ImageSource: the cell's colour when it is admitted, else none, `notadmitted` (R30, R32). -/
def Grid.read (g : Grid) (x y : Nat) : Option Pixel :=
  if g.admits x y then some (cellColour x y g.cells) else none

/-- `GridRead(x, y)`: the block issues x as a 3-bit and y as a 19-bit number (R8, R31, R32). -/
def gridRead (g : Grid) (x : Fin 8) (y : BitVec 19) : Option Pixel := g.read x.val y.toNat

/-- A cell's colour written into the list, keeping the canonical form: the colour an unlisted cell reads as removes
the entry. -/
def putCell (x y : Nat) (rgb : Pixel) : List GridCell → List GridCell
  | [] => if rgb = Config.unlistedCell then [] else [{ x := x, y := y, rgb := rgb }]
  | c :: rest =>
    if cellBefore x y c then
      if rgb = Config.unlistedCell then c :: rest else { x := x, y := y, rgb := rgb } :: c :: rest
    else if c.x = x ∧ c.y = y then
      if rgb = Config.unlistedCell then rest else { x := x, y := y, rgb := rgb } :: rest
    else c :: putCell x y rgb rest

/-- The platform's change of one cell; none when the grid has no such cell (R30, R37). The block never does this. -/
def Grid.put (g : Grid) (x y : Nat) (rgb : Pixel) : Option Grid :=
  if g.admits x y then some { g with cells := putCell x y rgb g.cells } else none

/-! ### The tile output stream (the write space) -/

/-- `Emit(TILE(idx, b))`: one record appended at the end, always accepted (R39, R41). -/
def emit (t : Tile) (s : State) : State := { s with out := s.out ++ [t] }

/-- The flat form of a record, 80 bits: idx on top, then b[0] to b[7] (R40). -/
def Tile.flat (t : Tile) : BitVec 80 :=
  t.idx ++ t.b[0] ++ t.b[1] ++ t.b[2] ++ t.b[3] ++ t.b[4] ++ t.b[5] ++ t.b[6] ++ t.b[7]

/-! ### Lanes and the tile buffer -/

/-- All eight registers of a file, when every one of them holds a value; none when one is `novalue`. The one way a
lane or a tile-buffer entry is read: a `novalue` register never yields a number (R8). -/
def allSome {α : Type} (v : Vector (Option α) 8) : Option (Vector α 8) :=
  if h : ∀ x : Fin 8, v[x].isSome = true then some (Vector.ofFn (fun x : Fin 8 => v[x].get (h x))) else none

/-- Lane x's valid bit as a mask over PXV. -/
def laneMask (x : Fin 8) : BitVec 8 := 1#8 <<< x.val

/-- `PX[lane] <- rgb; PXV[lane] <- 1` (R12, R71). -/
def writeLane (lane : Fin 8) (rgb : Pixel) (s : State) : State :=
  { s with px := s.px.set lane (some rgb), pxv := s.pxv ||| laneMask lane }

/-- `PX[x] <- v[x]` for x = 0..7; `PXV <- 0xFF` (R12, R72). -/
def writeLanes (v : Vector (Option Pixel) 8) (s : State) : State := { s with px := v, pxv := 0xFF#8 }

/-- `PXV <- 0x00`: the row is consumed, and the lanes are `novalue` (R12, R87, R103; log 5). -/
def invalidateLanes (s : State) : State := { s with px := novalueLanes, pxv := 0x00#8 }

/-- The tile-buffer index of ROWCNT (R14). -/
def rowIndex (r : BitVec 3) : Fin 8 := ⟨r.toNat, r.isLt⟩

/-- `TBUF[ROWCNT] <- byte` (R85). -/
def appendByte (b : Byte) (s : State) : State := { s with tbuf := s.tbuf.set (rowIndex s.rowcnt) (some b) }

/-- `ROWCNT <- 0; TBUF[0..7] <- novalue` (R86, R103, R104). -/
def emptyBuffer (s : State) : State := { s with rowcnt := 0#3, tbuf := novalueBytes }

/-! ### Taking a fault, and the return from one -/

/-- `raise F(info)`: FAULT, FCODE and FINFO are written, and with FAULT the mode is STOPPED; PTD, PTDROWS, DONE and
every other register keep their values; nothing is emitted (R136, R147). -/
def raise (code : FCode) (info : BitVec 32) (s : State) : State :=
  { s with status := { s.status with fault := true, fcode := code }, finfo := info }

/-- The return from a fault and the entry of a run, what START does: counters, buffer, lanes, STATUS and FINFO
cleared; INK and LIMIT kept; OUT and the grid untouched (R103, R148). -/
def beginRun (s : State) : State :=
  { invalidateLanes (emptyBuffer s) with tileidx := 0#16, status := Status.clear, finfo := 0#32 }

/-- The reset event: every piece of architectural state to its reset value; OUT, the grid and what is still to be
presented untouched (R25, R160). -/
def resetBlock (s : State) : State :=
  { State.reset with grid := s.grid, out := s.out, inputs := s.inputs }

/-- A word that decodes to ILLEGAL: IllegalCommand in RUN mode, dropped in STOPPED mode (R65, R139, R142). -/
def illegalCommand (w : Word) (s : State) : State := if s.stopped then s else raise .illegalCommand w s

end Sys2Proof.Machine
end

