-- ==== Sys2Proof/Machine/Operands.lean ====
section
/-! DEFINITION. The operands that stand in registers, not in the word (30_encoding.md R55): the scan position that
LDROW reads, the fetch of a grid row, the information words of the faults; and the registers as the host sees them
(10_state.md R13, R19, R21, R26). -/

namespace Sys2Proof.Machine

/-- The scan position Y = TILEIDX ∥ ROWCNT, 19 bits (R13); read as one number it is CR2 SCANPOS (R19). -/
def scanPos (s : State) : BitVec 19 := s.tileidx ++ s.rowcnt

/-- GridRange's information, zext_32(Y ∥ x) (R21, R138). -/
def gridRangeInfo (y : BitVec 19) (x : Fin 8) : BitVec 32 := (y ++ BitVec.ofNat 3 x.val).setWidth 32

/-- OutOfLabels' information, zext_32(TILEIDX) (R21, R137). -/
def outOfLabelsInfo (t : BitVec 16) : BitVec 32 := t.setWidth 32

/-- LaneUndefined's information, zext_32(PXV) (R21, R140). -/
def laneUndefinedInfo (v : BitVec 8) : BitVec 32 := v.setWidth 32

/-- The columns in the order LDROW reads them: x = 7 - c for c = 0..7 (R38, R72). -/
def readOrder : List (Fin 8) := [7, 6, 5, 4, 3, 2, 1, 0]

/-- LDROW's loop of grid reads: the values read into `v`, or the first cell that is not admitted (R72). -/
def fetchColumns (g : Grid) (y : BitVec 19) :
    List (Fin 8) → Vector (Option Pixel) 8 → Except (Fin 8) (Vector (Option Pixel) 8)
  | [], v => .ok v
  | x :: rest, v =>
    match gridRead g x y with
    | none => .error x
    | some p => fetchColumns g y rest (v.set x (some p))

/-- The eight cells of row y, columns 0..7, or the first refused column in read order (R46, R72). -/
def fetchRow (g : Grid) (y : BitVec 19) : Except (Fin 8) (Vector (Option Pixel) 8) :=
  fetchColumns g y readOrder novalueLanes

/-- What the host observes between commands, without a command and without side effect: CR0 to CR4 (R26). -/
structure HostView where
  /-- CR0 INK (R17). -/
  ink : BitVec 24
  /-- CR1 LIMIT (R18). -/
  limit : BitVec 16
  /-- CR2 SCANPOS (R19). -/
  scanpos : BitVec 19
  /-- CR3 STATUS (R20). -/
  status : BitVec 32
  /-- CR4 FINFO (R21). -/
  finfo : BitVec 32
  deriving DecidableEq, Repr

/-- The registers as the host sees them; PX, PXV and TBUF are not visible (R26). -/
def State.hostView (s : State) : HostView :=
  { ink := s.ink, limit := s.limit, scanpos := scanPos s, status := s.status.word, finfo := s.finfo }

end Sys2Proof.Machine
end

