-- ==== Sys2Proof/Machine/Control.lean ====
section
/-! DEFINITION. Configuration and run control: SETINK, SETLIM, START, END (43_control.md R100 to R104). -/

namespace Sys2Proof.Machine

/-- SETINK rgb: `INK <- rgb`, in RUN and in STOPPED mode (R101). -/
def execSetInk (rgb : Pixel) (s : State) : Host.Outcome State Fault Refusal := .next { s with ink := rgb }

/-- SETLIM n: `LIMIT <- n`, in RUN and in STOPPED mode (R102). -/
def execSetLim (n : BitVec 16) (s : State) : Host.Outcome State Fault Refusal := .next { s with limit := n }

/-- START, in RUN and in STOPPED mode: begins a run and is the only command that leaves STOPPED mode (R103, R148). -/
def execStart (s : State) : Host.Outcome State Fault Refusal := .next (beginRun s)

/-- END's drop of an unfinished tile: PTD and PTDROWS record the rows dropped (R104, R143). -/
def dropPartialTile (s : State) : State :=
  if s.rowcnt ≠ 0#3 then
    emptyBuffer { s with status := { s.status with ptd := true, ptdrows := s.rowcnt } }
  else s

/-- `STATUS.DONE <- 1` (R104). -/
def setDone (s : State) : State := { s with status := { s.status with done := true } }

/-- END: acts in RUN mode, dropped in STOPPED mode (R104, R142). -/
def execEndRun (s : State) : Host.Outcome State Fault Refusal :=
  if s.stopped then .next s else .next (setDone (dropPartialTile s))

end Sys2Proof.Machine
end

