-- ==== Sys2Proof/Machine/LaneLoad.lean ====
section
/-! DEFINITION. Lane loads: LDPX, LDROW (41_lane_load.md R70 to R73). -/

namespace Sys2Proof.Machine

/-- LDPX lane, rgb: acts in RUN mode, dropped in STOPPED mode (R70, R71). -/
def execLdPx (lane : Fin 8) (rgb : Pixel) (s : State) : Host.Outcome State Fault Refusal :=
  if s.stopped then .next s else .next (writeLane lane rgb s)

/-- LDROW in RUN mode: all eight lanes from row Y, or GridRange with no lane written (R72, R138). -/
def loadRow (s : State) : State :=
  match fetchRow s.grid (scanPos s) with
  | .ok v => writeLanes v s
  | .error x => raise .gridRange (gridRangeInfo (scanPos s) x) s

/-- LDROW: acts in RUN mode, dropped in STOPPED mode (R70, R72). -/
def execLdRow (s : State) : Host.Outcome State Fault Refusal :=
  if s.stopped then .next s else .next (loadRow s)

end Sys2Proof.Machine
end

