-- ==== Sys2Proof/Machine/Pack.lean ====
section
/-! DEFINITION. PACK: compare, weight, accumulate and finalize (42_pack.md R80 to R87). -/

namespace Sys2Proof.Machine

/-- The finalize that succeeds: the record emitted, the tile index advanced, the buffer emptied (R86). -/
def emitTile (b : Vector Byte 8) (s : State) : State :=
  emptyBuffer { emit { idx := s.tileidx, b := b } s with tileidx := s.tileidx + 1#16 }

/-- The finalize that finds no label: the tile dropped, TILEIDX kept, OutOfLabels recorded (R86, R137). -/
def outOfLabels (s : State) : State := raise .outOfLabels (outOfLabelsInfo s.tileidx) (emptyBuffer s)

/-- `Finalize()`, at a tile boundary, after the append (R86). Its read of the buffer refuses an entry that holds no
value, which no state that keeps R27 (i) has there (V3, log 6). -/
def finalize (s : State) : Host.Outcome State Fault Refusal :=
  if s.limit ≤ s.tileidx then .next (outOfLabels s)
  else
    match allSome s.tbuf with
    | some b => .next (emitTile b s)
    | none => .refused .novalueTileByte

/-- The append and what follows it: the next row, or the tile boundary (R14, R84, R85). -/
def acceptByte (b : Byte) (s : State) : Host.Outcome State Fault Refusal :=
  if s.rowcnt ≠ 7#3 then .next { appendByte b s with rowcnt := s.rowcnt + 1#3 } else finalize (appendByte b s)

/-- PACK in RUN mode (R84): the lane check, then the row byte of the INK current now, the lanes consumed (R87), the
append. Its read of the lanes faults where PXV = 0xFF and yet a lane holds no value, which no state that keeps R12
has (R8, log 6). -/
def packRow (s : State) : Host.Outcome State Fault Refusal :=
  if s.pxv ≠ 0xFF#8 then .next (raise .laneUndefined (laneUndefinedInfo s.pxv) s)
  else
    match allSome s.px with
    | some p => acceptByte (pack8 s.ink p) (invalidateLanes s)
    | none => .fault .novalueLane

/-- PACK: acts in RUN mode, dropped in STOPPED mode (R84, R142). -/
def execPack (s : State) : Host.Outcome State Fault Refusal := if s.stopped then .next s else packRow s

end Sys2Proof.Machine
end

