-- ==== Sys2Proof/Machine/Dispatch.lean ====
section
/-! DEFINITION. One arm per command (30_encoding.md R56, R65: "execute d"). -/

namespace Sys2Proof.Machine

def exec (i : Instr) (s : State) : Host.Outcome State Fault Refusal :=
  match i with
  | .setInk rgb => Sys2Proof.Machine.execSetInk rgb s
  | .setLim n => Sys2Proof.Machine.execSetLim n s
  | .start => Sys2Proof.Machine.execStart s
  | .endRun => Sys2Proof.Machine.execEndRun s
  | .ldPx lane rgb => Sys2Proof.Machine.execLdPx lane rgb s
  | .ldRow => Sys2Proof.Machine.execLdRow s
  | .pack => Sys2Proof.Machine.execPack s

end Sys2Proof.Machine
end

