-- ==== Sys2Proof/Machine/Port.lean ====
section
/-! DEFINITION. The ports of the block: what one presented word or event does (30_encoding.md R65;
70_reset_and_hazards.md R160, R164). -/

namespace Sys2Proof.Machine

/-- `Step(w)` (R65): the word is decoded and executed. A command that STOPPED mode drops is dropped by its own
meaning; an illegal word is a fault in RUN mode and dropped in STOPPED mode. -/
def acceptWord (w : Word) (s : State) : Host.Outcome State Fault Refusal :=
  match decode w with
  | .ok i => exec i s
  | .error _ => .next (illegalCommand w s)

/-- The platform's change of one cell, between commands (R37). -/
def changeCell (x y : Nat) (rgb : Pixel) (s : State) : Host.Outcome State Fault Refusal :=
  match s.grid.put x y rgb with
  | some g => .next { s with grid := g }
  | none => .fault .absentCell

/-- One presented word or event, already taken off the front of `inputs`. -/
def accept (i : Input) (s : State) : Host.Outcome State Fault Refusal :=
  match i with
  | .word w => acceptWord w s
  | .twoWords _ _ => .refused .twoWordsAtOnce
  | .reset _ => .next (resetBlock s)
  | .attach g => .next { s with grid := g }
  | .setCell x y rgb => changeCell x y rgb s

/-- The next thing presented, consumed from the front (R42); when nothing is presented "the block does nothing and its
state does not change" (R65). -/
def takeInput (s : State) : Host.Outcome State Fault Refusal :=
  match s.inputs with
  | [] => .next s
  | i :: rest => accept i { s with inputs := rest }

/-- A command word presented next, before everything already waiting (R42). -/
def present (w : Word) (s : State) : State := { s with inputs := .word w :: s.inputs }

end Sys2Proof.Machine
end

