-- ==== Sys2Proof/Machine/Step.lean ====
section
/-! DEFINITION. One step of the machine: the next presented word or event is taken and completed (30_encoding.md
R65, 70_reset_and_hazards.md R172). -/

namespace Sys2Proof.Machine

def step (s : State) : Host.Outcome State Fault Refusal := takeInput s

/-- `s` with that command word presented next, so that the next step executes it: the block fetches nothing, words are
delivered to it (R13, R42; log 1). -/
def State.withFetchWord (s : State) (nbits w : Nat) : State := present (tableWord nbits w) s

end Sys2Proof.Machine
end

