-- ==== Sys2Proof/Machine/Macros.lean ====
section
/-! DEFINITION. The pseudo-instructions as words (30_encoding.md R61 to R64), and the host's issuing of words one at a
time (70_reset_and_hazards.md R164). -/

namespace Sys2Proof.Machine

/-- ROW = LDROW ; PACK (R61). -/
def rowWords : List Word := [encode .ldRow, encode .pack]

/-- PUSHROW p0..p7 = LDPX 0,p0 ; ... ; LDPX 7,p7 ; PACK (R62). -/
def pushRowWords (p : Vector Pixel 8) : List Word := columns.map (fun x => encode (.ldPx x p[x])) ++ [encode .pack]

/-- SCAN h = START ; (LDROW ; PACK) h times ; END (R63). -/
def scanWords (h : Nat) : List Word := encode .start :: (List.replicate h rowWords).flatten ++ [encode .endRun]

/-- ENCODE ink, n, h = SETINK ink ; SETLIM n ; SCAN h (R64). -/
def encodeWords (ink : Pixel) (n : BitVec 16) (h : Nat) : List Word :=
  encode (.setInk ink) :: encode (.setLim n) :: scanWords h

/-- The host issues words in order, each one completed before the next (R43, R164). -/
def issue : List Word → State → Host.Outcome State Fault Refusal
  | [], s => .next s
  | w :: rest, s =>
    match step (present w s) with
    | .next t => issue rest t
    | .fault f => .fault f
    | .refused r => .refused r

end Sys2Proof.Machine
end

