-- ==== Sys2Proof/Machine/Assembler.lean ====
section
/-! DEFINITION. The assembler syntax of the commands and pseudo-instructions (30_encoding.md R60 to R64, D24): one
source line to its words, or an assembler error and no word. What R60 does not say of blanks and of the case of
hexadecimal digits is the model's choice (log 13). -/

namespace Sys2Proof.Machine

/-- Why a line gives no word: an assembler error (R60). -/
inductive AsmError where
  /-- The mnemonic is none of the seven commands and four pseudo-instructions. -/
  | unknownMnemonic
  /-- Too many or too few operands. -/
  | operandCount
  /-- "a colour with other than six digits", or not written `#RRGGBB`. -/
  | badColour
  /-- Not a decimal or `0x` hexadecimal number. -/
  | badNumber
  /-- "a number above 65535". -/
  | numberOutOfRange
  /-- "a lane above 7". -/
  | laneOutOfRange
  deriving DecidableEq, Repr

/-- A source line: a command, a pseudo-instruction, or nothing but blanks and a comment. -/
inductive SourceLine where
  | blank
  | command (i : Instr)
  | row
  | pushRow (p : Vector Pixel 8)
  | scan (h : Nat)
  | encodeRun (ink : Pixel) (n : BitVec 16) (h : Nat)
  deriving DecidableEq, Repr

/-- The words of a source line (R60 to R64). -/
def SourceLine.words : SourceLine → List Word
  | .blank => []
  | .command i => [encode i]
  | .row => rowWords
  | .pushRow p => pushRowWords p
  | .scan h => scanWords h
  | .encodeRun ink n h => encodeWords ink n h

/-- Space and tab separate (log 13). -/
def isBlank (c : Char) : Bool := c == ' ' || c == '\t'

/-- `;` starts a comment to the end of the line (R60). -/
def stripComment (t : Text) : Text := t.takeWhile (fun c => c != ';')

/-- A text without blanks at either end. -/
def trim (t : Text) : Text := ((t.dropWhile isBlank).reverse.dropWhile isBlank).reverse

/-- A text cut at its commas (R60). -/
def splitCommas : Text → List Text
  | [] => [[]]
  | c :: cs =>
    if c = ',' then [] :: splitCommas cs
    else
      match splitCommas cs with
      | [] => [[c]]
      | w :: ws => (c :: w) :: ws

/-- The operands of a line: none, or those between its commas. -/
def operandsOf (t : Text) : List Text := if trim t = [] then [] else (splitCommas t).map trim

/-- A decimal digit's value. -/
def decDigit (c : Char) : Option Nat := if '0' ≤ c ∧ c ≤ '9' then some (c.toNat - 48) else none

/-- A hexadecimal digit's value, in either case (log 13). -/
def hexDigit (c : Char) : Option Nat :=
  if '0' ≤ c ∧ c ≤ '9' then some (c.toNat - 48)
  else if 'A' ≤ c ∧ c ≤ 'F' then some (c.toNat - 55)
  else if 'a' ≤ c ∧ c ≤ 'f' then some (c.toNat - 87)
  else none

/-- The value of a digit string, most significant digit first, onto `acc`; none at a character that is no digit. -/
def digitsValue (base : Nat) (digit : Char → Option Nat) : Nat → Text → Option Nat
  | acc, [] => some acc
  | acc, c :: cs =>
    match digit c with
    | some d => digitsValue base digit (acc * base + d) cs
    | none => none

/-- A number, decimal or `0x` hexadecimal (R60). -/
def parseNumber (t : Text) : Except AsmError Nat :=
  match t with
  | '0' :: 'x' :: d :: ds =>
    match digitsValue 16 hexDigit 0 (d :: ds) with
    | some v => .ok v
    | none => .error .badNumber
  | d :: ds =>
    match digitsValue 10 decDigit 0 (d :: ds) with
    | some v => .ok v
    | none => .error .badNumber
  | [] => .error .badNumber

/-- A colour `#RRGGBB`, six hexadecimal digits, R first (R60). -/
def parseColour (t : Text) : Except AsmError Pixel :=
  match t with
  | '#' :: ds =>
    match digitsValue 16 hexDigit 0 ds with
    | some v => if ds.length = 6 ∧ colourOk v then .ok (BitVec.ofNat 24 v) else .error .badColour
    | none => .error .badColour
  | _ => .error .badColour

/-- A label count, a number 0..65535 (R60). -/
def parseCount (t : Text) : Except AsmError (BitVec 16) :=
  match parseNumber t with
  | .ok v => if numberOk v then .ok (BitVec.ofNat 16 v) else .error .numberOutOfRange
  | .error e => .error e

/-- A lane, a number 0..7 (R60). -/
def parseLane (t : Text) : Except AsmError (Fin 8) :=
  match parseNumber t with
  | .ok v => if laneOk v then .ok (Fin.ofNat 8 v) else .error .laneOutOfRange
  | .error e => .error e

/-- The eight colours of a PUSHROW (R62). -/
def parseRow (ops : List Text) : Except AsmError (Vector Pixel 8) :=
  match ops with
  | [t0, t1, t2, t3, t4, t5, t6, t7] => do
    let p0 ← parseColour t0
    let p1 ← parseColour t1
    let p2 ← parseColour t2
    let p3 ← parseColour t3
    let p4 ← parseColour t4
    let p5 ← parseColour t5
    let p6 ← parseColour t6
    let p7 ← parseColour t7
    return #v[p0, p1, p2, p3, p4, p5, p6, p7]
  | _ => .error .operandCount

/-- A line that takes no operand. -/
def noOperand (ops : List Text) (l : SourceLine) : Except AsmError SourceLine :=
  if ops = [] then .ok l else .error .operandCount

/-- SETINK's operand. -/
def parseSetInk (ops : List Text) : Except AsmError SourceLine :=
  match ops with
  | [t] => (parseColour t).map (fun rgb => .command (.setInk rgb))
  | _ => .error .operandCount

/-- SETLIM's operand. -/
def parseSetLim (ops : List Text) : Except AsmError SourceLine :=
  match ops with
  | [t] => (parseCount t).map (fun n => .command (.setLim n))
  | _ => .error .operandCount

/-- LDPX's operands. -/
def parseLdPx (ops : List Text) : Except AsmError SourceLine :=
  match ops with
  | [t0, t1] => do
    let lane ← parseLane t0
    let rgb ← parseColour t1
    return .command (.ldPx lane rgb)
  | _ => .error .operandCount

/-- SCAN's operand, any natural number (R63). -/
def parseScan (ops : List Text) : Except AsmError SourceLine :=
  match ops with
  | [t] => (parseNumber t).map (fun h => .scan h)
  | _ => .error .operandCount

/-- ENCODE's operands (R64). -/
def parseEncode (ops : List Text) : Except AsmError SourceLine :=
  match ops with
  | [t0, t1, t2] => do
    let ink ← parseColour t0
    let n ← parseCount t1
    let h ← parseNumber t2
    return .encodeRun ink n h
  | _ => .error .operandCount

/-- One source line: a mnemonic in upper case, then operands separated by commas (R60 to R64). -/
def parseLine (line : Text) : Except AsmError SourceLine :=
  let t := trim (stripComment line)
  let mnemonic := t.takeWhile (fun c => !isBlank c)
  let ops := operandsOf (t.dropWhile (fun c => !isBlank c))
  if mnemonic = [] then .ok .blank
  else if mnemonic = ['S', 'E', 'T', 'I', 'N', 'K'] then parseSetInk ops
  else if mnemonic = ['S', 'E', 'T', 'L', 'I', 'M'] then parseSetLim ops
  else if mnemonic = ['S', 'T', 'A', 'R', 'T'] then noOperand ops (.command .start)
  else if mnemonic = ['E', 'N', 'D'] then noOperand ops (.command .endRun)
  else if mnemonic = ['L', 'D', 'P', 'X'] then parseLdPx ops
  else if mnemonic = ['L', 'D', 'R', 'O', 'W'] then noOperand ops (.command .ldRow)
  else if mnemonic = ['P', 'A', 'C', 'K'] then noOperand ops (.command .pack)
  else if mnemonic = ['R', 'O', 'W'] then noOperand ops .row
  else if mnemonic = ['P', 'U', 'S', 'H', 'R', 'O', 'W'] then (parseRow ops).map (fun p => .pushRow p)
  else if mnemonic = ['S', 'C', 'A', 'N'] then parseScan ops
  else if mnemonic = ['E', 'N', 'C', 'O', 'D', 'E'] then parseEncode ops
  else .error .unknownMnemonic

/-- The words of one source line, or the assembler error, in which case "no word is produced" (R60). -/
def assembleLine (line : Text) : Except AsmError (List Word) := (parseLine line).map SourceLine.words

/-- The words of a source text, line by line, up to the first error. -/
def assemble : List Text → Except AsmError (List Word)
  | [] => .ok []
  | line :: rest =>
    match assembleLine line with
    | .error e => .error e
    | .ok ws => (assemble rest).map (fun more => ws ++ more)

end Sys2Proof.Machine
end

