-- ==== Sys2Proof/Machine/Formatter.lean ====
section
/-! DEFINITION. Host rules: TILE records to text (44_host_formatter.md R115 to R121, R129 to R131). No command; they
run on the host, not in the block (R2). -/

namespace Sys2Proof.Machine

/-- The character of a decimal digit. -/
def digitChar (d : Nat) : Char := Char.ofNat (48 + d)

/-- `dec(v)`: the decimal numeral of v, most significant digit first, no sign, no leading zeros (R116). -/
def dec (v : Byte) : Text :=
  if v.toNat < 10 then [digitChar v.toNat]
  else if v.toNat < 100 then [digitChar (v.toNat / 10), digitChar (v.toNat % 10)]
  else [digitChar (v.toNat / 100), digitChar (v.toNat / 10 % 10), digitChar (v.toNat % 10)]

/-- `ljust(s, n)`: s followed by max(0, n - len(s)) spaces; nothing is cut off (R117, R129). -/
def ljust (t : Text) (n : Nat) : Text := t ++ List.replicate (n - t.length) ' '

/-- `comment(L)` = "; Graphic for " + L, the bare label (R118). -/
def commentLine (label : Text) : Text :=
  [';', ' ', 'G', 'r', 'a', 'p', 'h', 'i', 'c', ' ', 'f', 'o', 'r', ' '] ++ label

/-- Strings joined with commas: no space around a comma, no trailing comma (R119). -/
def joinCommas : List Text → Text
  | [] => []
  | [t] => t
  | t :: u :: rest => t ++ ',' :: joinCommas (u :: rest)

/-- `data(L, b)` (R119). -/
def dataLine (p : FormatParams) (label : Text) (b : Vector Byte 8) : Text :=
  ljust (Config.labelToken ++ label) p.colw ++ p.keyword ++ Config.keywordGap ++ joinCommas (b.toList.map dec)

/-- One record becomes exactly two lines, comment then data, with labels[idx]; none when there is no such label, the
host's own failure where LIMIT was set above len(labels) (R120, R168, V10). -/
def recordLines (p : FormatParams) (labels : List Text) (t : Tile) : Option (List Text) :=
  match labels[t.idx.toNat]? with
  | some label => some [commentLine label, dataLine p label t.b]
  | none => none

/-- The line sequence of a run: the two lines of each record, in emission order (R121). -/
def runLines (p : FormatParams) (labels : List Text) : List Tile → Option (List Text)
  | [] => some []
  | t :: rest =>
    match recordLines p labels t, runLines p labels rest with
    | some two, some more => some (two ++ more)
    | _, _ => none

/-- What the sink holds after one write of the lines, LINE_END after each (R6, R130; log 14). -/
def sinkText (p : FormatParams) (lines : List Text) : Text := lines.flatMap (fun line => line ++ p.lineEnd)

end Sys2Proof.Machine
end

