-- ==== Sys2Proof/Machine/HostEncode.lean ====
section
/-! DEFINITION. Host rules: the encode contract and the whole conversion (44_host_formatter.md R122 to R128), over the
machine's own `step`. -/

namespace Sys2Proof.Machine

/-- What `encode` returns: a line sequence or an error (R122). -/
inductive EncodeResult where
  /-- The line sequence of the run; with it the warning PartialTileDiscarded, the rows END dropped, when STATUS.PTD is
  set: the warning never changes the lines and is never an error (R125). -/
  | lines (ls : List Text) (dropped : Option (BitVec 3))
  /-- OutOfLabels(FINFO), the failing tile index (R124). -/
  | outOfLabels (info : BitVec 32)
  /-- GridRange, reported as ImageLoadError (R126). -/
  | imageLoadError
  /-- More than 65535 labels: refused before any word is issued (R123). -/
  | tooManyLabels
  /-- A record without a label reached the host (R168, V10): not with LIMIT = len(labels). -/
  | noLabel
  /-- The model stopped (`Fault`, `Refusal`): not from a state that keeps the invariants. -/
  | modelStopped
  deriving DecidableEq, Repr

/-- What the host reads off the block when the words of ENCODE have been issued (R122); `before` is how many records
OUT held when the run began. -/
def encodeResult (p : FormatParams) (labels : List Text) (before : Nat) (s : State) : EncodeResult :=
  if s.status.fault = true ∧ s.status.fcode = .outOfLabels then .outOfLabels s.finfo
  else if s.status.fault = true ∧ s.status.fcode = .gridRange then .imageLoadError
  else
    match runLines p labels (s.out.drop before) with
    | some ls => .lines ls (if s.status.ptd then some s.status.ptdrows else none)
    | none => .noLabel

/-- `encode(grid, ink, labels)` (R122), from any state of the machine: the grid is attached, ENCODE is issued with
n = len(labels) and h = grid.height, and STATUS decides. It returns the machine's state beside the result. -/
def hostEncode (p : FormatParams) (g : Grid) (ink : Pixel) (labels : List Text) (s : State) : EncodeResult × State :=
  if labels.length > 65535 then (.tooManyLabels, s)
  else
    match issue (encodeWords ink (BitVec.ofNat 16 labels.length) g.height) { s with grid := g } with
    | .next t => (encodeResult p labels s.out.length t, t)
    | .fault _ => (.modelStopped, s)
    | .refused _ => (.modelStopped, s)

/-- How one conversion ends (R126 to R128). -/
inductive ToolResult where
  /-- The sink holds the whole text, written in one call after `encode` returned (R128); the warning of R125. -/
  | written (text : Text) (dropped : Option (BitVec 3))
  /-- The ImageSource gave no grid, or the grid lacks cells the run asked for (R126). -/
  | imageLoadError
  /-- OutOfLabels(i): nothing is written to the sink (R124). -/
  | outOfLabels (info : BitVec 32)
  /-- The call was refused (R123). -/
  | tooManyLabels
  /-- The sink's destination is not writable (R127). -/
  | outputWriteError
  /-- `EncodeResult.noLabel` or `EncodeResult.modelStopped`. -/
  | failed
  deriving DecidableEq, Repr

/-- The one write of a successful `encode` (R127, R128). -/
def writeResult (p : FormatParams) (writable : Bool) : EncodeResult → ToolResult
  | .lines ls dropped => if writable then .written (sinkText p ls) dropped else .outputWriteError
  | .outOfLabels info => .outOfLabels info
  | .imageLoadError => .imageLoadError
  | .tooManyLabels => .tooManyLabels
  | .noLabel => .failed
  | .modelStopped => .failed

/-- One conversion: `image` is what the ImageSource decoded (none: ImageLoadError, before any command is issued,
R126), `writable` whether the sink's destination can be written (R127). -/
def convert (p : FormatParams) (image : Option Grid) (writable : Bool) (ink : Pixel) (labels : List Text)
    (s : State) : ToolResult × State :=
  match image with
  | none => (.imageLoadError, s)
  | some g =>
    match hostEncode p g ink labels s with
    | (r, t) => (writeResult p writable r, t)

end Sys2Proof.Machine
end

