-- ==== Sys2Proof/Safety.lean ====
section
/-! DEFINITION. What a safe state and a safe run are: the invariants of 10_state.md R27 in the form a single step
keeps, and the promises made about a whole run (R13, R15, R39, R172). -/

namespace Sys2Proof.Machine

/-- What is presented keeps the grid's canonical form: an attached grid is in it (log 3). -/
def Input.wf : Input → Bool
  | .word _ => true
  | .twoWords _ _ => true
  | .reset _ => true
  | .attach g => Memory.wf g
  | .setCell _ _ _ => true

/-- The fields of STATUS and FINFO agree (R20, R21, R27 (ii) to (iv), and R136's derived "PTD is set only by END,
which sets DONE"). -/
structure Status.Inv (t : Status) (finfo : BitVec 32) : Prop where
  /-- R27 (ii). -/
  fault_iff_code : t.fault = true ↔ t.fcode ≠ .noFault
  /-- R27 (iii), first half. -/
  rows_of_no_ptd : t.ptd = false → t.ptdrows = 0#3
  /-- R27 (iii), second half: 1 ≤ PTDROWS ≤ 7. -/
  rows_of_ptd : t.ptd = true → t.ptdrows ≠ 0#3
  /-- R27 (iv). -/
  not_both : ¬(t.fault = true ∧ t.done = true)
  /-- R136, derived. -/
  ptd_done : t.ptd = true → t.done = true
  /-- R21: FINFO is 0 with code 0. -/
  info_of_no_code : t.fcode = .noFault → finfo = 0#32

/-- The invariant every step keeps. -/
structure State.Inv (s : State) : Prop where
  /-- R12: PXV[x] = 1 means PX[x] holds a value, PXV[x] = 0 means it is `novalue`. -/
  lanes : ∀ x : Fin 8, s.px[x].isSome = s.pxv.getLsbD x.val
  /-- R27 (i): TBUF[k] holds a value if and only if k < ROWCNT. -/
  buffer : ∀ k : Fin 8, s.tbuf[k].isSome = decide (k.val < s.rowcnt.toNat)
  /-- R27 (ii) to (iv). -/
  status : s.status.Inv s.finfo
  /-- R27 (v). -/
  done_empty : s.status.done = true → s.rowcnt = 0#3
  /-- The grid is in canonical form (log 3). -/
  grid : Memory.wf s.grid = true
  /-- And so is every grid still to be attached. -/
  inputs : ∀ i ∈ s.inputs, i.wf = true

/-- R27 (viii), relative to what OUT held when the run began: since then the records carry the indices 0, 1, ...,
TILEIDX - 1, in that order, each once. -/
def runRecords (before : List Tile) (s : State) : Prop :=
  ∃ records : List Tile, s.out = before ++ records
    ∧ records.map (fun t => t.idx.toNat) = List.range s.tileidx.toNat

/-- Row y of the grid, columns 0..7, each pixel as GRID gives it (R46). -/
def gridRow (g : Grid) (y : Nat) : Vector Pixel 8 := Vector.ofFn (fun x : Fin 8 => cellColour x.val y g.cells)

/-- The record a run over the grid has for tile i: b[k] = Pack8(ink, row 8i + k of the grid, columns 0..7) (R89 (a)). -/
def gridTile (ink : Pixel) (g : Grid) (i : Nat) : Tile :=
  { idx := BitVec.ofNat 16 i, b := Vector.ofFn (fun k : Fin 8 => pack8 ink (gridRow g (8 * i + k.val))) }

/-- The outcome is a next state: no stop of the model. -/
def answersNext (o : Host.Outcome State Fault Refusal) : Prop := ∃ t, o = .next t

/-- The next thing presented is a command word: the step is a step of the block, not an event around it. -/
def nextIsWord (s : State) : Prop := ∃ w rest, s.inputs = .word w :: rest

end Sys2Proof.Machine
end

