-- ==== Sys2Proof/Certificates/Slice0/Obligations.lean ====
section
/-! DEFINITION. The statements for the provers, each with the rule of spec/ it formalises. -/

open Sys2Proof Sys2Proof.Machine

/-! ### Encoding (30_encoding.md) -/

/-- Decode and encode agree: no bit of any operand is dropped, for every command and every operand value. Every
`Instr` is well-formed by its types (Laws.TableRow). -/
def Obligations.DecodeOfEncode : Prop :=
  ∀ i : Instr, decode (encode i) = .ok i

/-- Each legal word has one meaning: the word of the command it decodes to is that word again. -/
def Obligations.EncodeOfDecode : Prop :=
  ∀ (w : Word) (i : Instr), decode w = .ok i → encode i = w

/-- R56: a word is the command of a row if and only if (w & mask) = match, with the operand fields of that row; and no
word matches two rows (R56's own derived sentence, "The seven patterns are pairwise disjoint"). -/
def Obligations.DecodeIsMaskAndMatch : Prop :=
  (∀ w : Word,
    (∀ rgb : Pixel, decode w = .ok (.setInk rgb)
        ↔ w &&& 0xFF000000#32 = 0x01000000#32 ∧ rgb = w.extractLsb' 0 24)
    ∧ (∀ n : BitVec 16, decode w = .ok (.setLim n)
        ↔ w &&& 0xFFFF0000#32 = 0x02000000#32 ∧ n = w.extractLsb' 0 16)
    ∧ (decode w = .ok .start ↔ w &&& 0xFFFFFFFF#32 = 0x03000000#32)
    ∧ (decode w = .ok .endRun ↔ w &&& 0xFFFFFFFF#32 = 0x04000000#32)
    ∧ (∀ (lane : Fin 8) (rgb : Pixel), decode w = .ok (.ldPx lane rgb)
        ↔ w &&& 0xF8000000#32 = 0x10000000#32 ∧ lane.val = (w.extractLsb' 24 3).toNat ∧ rgb = w.extractLsb' 0 24)
    ∧ (decode w = .ok .ldRow ↔ w &&& 0xFFFFFFFF#32 = 0x20000000#32)
    ∧ (decode w = .ok .pack ↔ w &&& 0xFFFFFFFF#32 = 0x21000000#32))
  ∧ ∀ (i j : Instr) (w : Word), w &&& maskOf i = patternOf i → w &&& maskOf j = patternOf j →
      maskOf i = maskOf j ∧ patternOf i = patternOf j

/-- The illegal words are exactly the three classes of R58's list. -/
def Obligations.IllegalWordsAreTheListed : Prop :=
  ∀ w : Word, (∀ i : Instr, decode w ≠ .ok i)
    ↔ ((w.extractLsb' 24 8).toNat = 0
        ∨ (5 ≤ (w.extractLsb' 24 8).toNat ∧ (w.extractLsb' 24 8).toNat ≤ 15)
        ∨ (24 ≤ (w.extractLsb' 24 8).toNat ∧ (w.extractLsb' 24 8).toNat ≤ 31)
        ∨ 34 ≤ (w.extractLsb' 24 8).toNat)
      ∨ (((w.extractLsb' 24 8).toNat = 3 ∨ (w.extractLsb' 24 8).toNat = 4
          ∨ (w.extractLsb' 24 8).toNat = 32 ∨ (w.extractLsb' 24 8).toNat = 33)
          ∧ w.extractLsb' 0 24 ≠ 0#24)
      ∨ ((w.extractLsb' 24 8).toNat = 2 ∧ w.extractLsb' 16 8 ≠ 0#8)

/-- The words R60 writes out for its examples, bit for bit, decode to the commands they stand for. -/
def Obligations.WrittenOutWordsDecode : Prop :=
  decode 0x01000000#32 = .ok (.setInk 0x000000#24)
  ∧ decode 0x02000002#32 = .ok (.setLim 2#16)
  ∧ decode 0x03000000#32 = .ok .start
  ∧ decode 0x04000000#32 = .ok .endRun
  ∧ decode 0x13FF0000#32 = .ok (.ldPx 3 0xFF0000#24)
  ∧ decode 0x20000000#32 = .ok .ldRow
  ∧ decode 0x21000000#32 = .ok .pack

/-! ### Dispatch, modes and what is presented (R65, R141, R142) -/

/-- A step runs the decoded command: with a word presented that decodes to i, the step is exec of i on the state from
whose inputs that word has been taken, and nothing is done around it. -/
def Obligations.StepRunsDecodedCommand : Prop :=
  ∀ (s : State) (w : Word) (rest : List Input) (i : Instr),
    s.inputs = .word w :: rest → decode w = .ok i → step s = exec i { s with inputs := rest }

/-- R65, Step(w), line by line; and with no word presented nothing changes. -/
def Obligations.StepIsTheDispatchRule : Prop :=
  (∀ s : State, s.inputs = [] → step s = .next s)
  ∧ ∀ (s : State) (w : Word) (rest : List Input), s.inputs = .word w :: rest →
      (s.status.fault = true ∨ s.status.done = true →
        (∀ rgb, decode w = .ok (.setInk rgb) → step s = exec (.setInk rgb) { s with inputs := rest })
        ∧ (∀ n, decode w = .ok (.setLim n) → step s = exec (.setLim n) { s with inputs := rest })
        ∧ (decode w = .ok .start → step s = exec .start { s with inputs := rest })
        ∧ ((∀ rgb, decode w ≠ .ok (.setInk rgb)) → (∀ n, decode w ≠ .ok (.setLim n)) → decode w ≠ .ok .start →
            step s = .next { s with inputs := rest }))
      ∧ (s.status.fault = false → s.status.done = false →
        (∀ i, decode w = .ok i → step s = exec i { s with inputs := rest })
        ∧ ((∀ i, decode w ≠ .ok i) →
            step s = .next { s with
              inputs := rest, status := { s.status with fault := true, fcode := .illegalCommand }, finfo := w }))

/-- R142: in STOPPED mode LDPX, LDROW, PACK, END and every illegal word are dropped, nothing changes; SETINK, SETLIM
and START are executed as usual. -/
def Obligations.StoppedModeDrops : Prop :=
  ∀ s : State, (s.status.fault = true ∨ s.status.done = true) →
    (∀ lane rgb, exec (.ldPx lane rgb) s = .next s)
    ∧ exec .ldRow s = .next s ∧ exec .pack s = .next s ∧ exec .endRun s = .next s
    ∧ (∀ w, (∀ i, decode w ≠ .ok i) → step (present w s) = .next s)
    ∧ (∀ rgb, exec (.setInk rgb) s = .next { s with ink := rgb })
    ∧ (∀ n, exec (.setLim n) s = .next { s with limit := n })
    ∧ exec .start s = .next { s with
        rowcnt := 0#3, tileidx := 0#16, tbuf := Vector.replicate 8 none, px := Vector.replicate 8 none, pxv := 0x00#8,
        status := { fault := false, fcode := .noFault, ptd := false, ptdrows := 0#3, done := false },
        finfo := 0x00000000#32 }

/-- R139: in RUN mode a word that decodes to ILLEGAL changes nothing but the fault record, FCODE 3 and FINFO the word;
in STOPPED mode it is dropped and records nothing. -/
def Obligations.IllegalCommandFault : Prop :=
  ∀ (s : State) (w : Word), (∀ i, decode w ≠ .ok i) →
    (s.status.fault = false → s.status.done = false →
      step (present w s) = .next { s with
        status := { s.status with fault := true, fcode := .illegalCommand }, finfo := w })
    ∧ (s.status.fault = true ∨ s.status.done = true → step (present w s) = .next s)

/-- R141: RUN is entered by reset and by START; STOPPED by any recorded fault and by END; the mode is that function of
STATUS. -/
def Obligations.ModeIsEnteredAsStated : Prop :=
  (∀ s : State, s.stopped = true ↔ s.status.fault = true ∨ s.status.done = true)
  ∧ (∀ s : State, (resetBlock s).stopped = false)
  ∧ (∀ s : State, ∃ t, exec .start s = .next t ∧ t.stopped = false)
  ∧ (∀ s : State, ∃ t, exec .endRun s = .next t ∧ t.stopped = true)
  ∧ ∀ (code : FCode) (info : BitVec 32) (s : State), (raise code info s).stopped = true

/-! ### Configuration and run control (43_control.md) -/

/-- R101: SETINK's word and its effect, in either mode. -/
def Obligations.SetInkResult : Prop :=
  ∀ (rgb : Pixel) (s : State),
    (encode (.setInk rgb)).toNat = 0x01000000 + rgb.toNat ∧ exec (.setInk rgb) s = .next { s with ink := rgb }

/-- R102: SETLIM's word and its effect, in either mode; a word 0x02xxNNNN with xx != 0 is illegal, not a SETLIM. -/
def Obligations.SetLimResult : Prop :=
  (∀ (n : BitVec 16) (s : State),
    (encode (.setLim n)).toNat = 0x02000000 + n.toNat ∧ exec (.setLim n) s = .next { s with limit := n })
  ∧ ∀ w : Word, w.extractLsb' 24 8 = 0x02#8 → w.extractLsb' 16 8 ≠ 0x00#8 → ∀ i, decode w ≠ .ok i

/-- R103: START's word and its effect, in either mode: counters, buffer, lanes, STATUS and FINFO cleared; INK and
LIMIT kept; OUT and the grid untouched; START directly after reset changes nothing; START twice is START once. -/
def Obligations.StartResult : Prop :=
  encode .start = 0x03000000#32
  ∧ (∀ s : State, exec .start s = .next { s with
      rowcnt := 0#3, tileidx := 0#16, tbuf := Vector.replicate 8 none, px := Vector.replicate 8 none, pxv := 0x00#8,
      status := { fault := false, fcode := .noFault, ptd := false, ptdrows := 0#3, done := false },
      finfo := 0x00000000#32 })
  ∧ (∀ s : State, exec .start (resetBlock s) = .next (resetBlock s))
  ∧ ∀ s t : State, exec .start s = .next t → exec .start t = .next t

/-- R104: END's word and its effect in RUN mode: with ROWCNT != 0 the rows are dropped, PTD and PTDROWS set; DONE is
set always; in STOPPED mode it is dropped. -/
def Obligations.EndResult : Prop :=
  encode .endRun = 0x04000000#32
  ∧ (∀ s : State, s.stopped = false → s.rowcnt ≠ 0#3 → exec .endRun s = .next { s with
      status := { s.status with ptd := true, ptdrows := s.rowcnt, done := true },
      rowcnt := 0#3, tbuf := Vector.replicate 8 none })
  ∧ (∀ s : State, s.stopped = false → s.rowcnt = 0#3 →
      exec .endRun s = .next { s with status := { s.status with done := true } })
  ∧ ∀ s : State, s.stopped = true → exec .endRun s = .next s

/-- What SETINK, SETLIM, START and END leave unchanged. -/
def Obligations.ControlFrame : Prop :=
  ∀ s t : State,
    (∀ rgb, exec (.setInk rgb) s = .next t →
      t.px = s.px ∧ t.pxv = s.pxv ∧ t.rowcnt = s.rowcnt ∧ t.tileidx = s.tileidx ∧ t.tbuf = s.tbuf
        ∧ t.limit = s.limit ∧ t.status = s.status ∧ t.finfo = s.finfo)
    ∧ (∀ n, exec (.setLim n) s = .next t →
      t.px = s.px ∧ t.pxv = s.pxv ∧ t.rowcnt = s.rowcnt ∧ t.tileidx = s.tileidx ∧ t.tbuf = s.tbuf
        ∧ t.ink = s.ink ∧ t.status = s.status ∧ t.finfo = s.finfo)
    ∧ (exec .start s = .next t → t.ink = s.ink ∧ t.limit = s.limit)
    ∧ (exec .endRun s = .next t →
      t.px = s.px ∧ t.pxv = s.pxv ∧ t.tileidx = s.tileidx ∧ t.ink = s.ink ∧ t.limit = s.limit
        ∧ t.status.fault = s.status.fault ∧ t.status.fcode = s.status.fcode ∧ t.finfo = s.finfo
        ∧ (s.rowcnt = 0#3 → t.rowcnt = s.rowcnt ∧ t.tbuf = s.tbuf
            ∧ t.status.ptd = s.status.ptd ∧ t.status.ptdrows = s.status.ptdrows))
    ∧ ∀ i, (∃ rgb, i = .setInk rgb) ∨ (∃ n, i = .setLim n) ∨ i = .start ∨ i = .endRun →
        exec i s = .next t →
        (∀ x y, t.grid.read x y = s.grid.read x y) ∧ (∀ k : Nat, t.out[k]? = s.out[k]?) ∧ t.inputs = s.inputs

/-! ### Lane loads (41_lane_load.md) -/

/-- R71: LDPX's word and its effect in RUN mode: `PX[lane] <- rgb; PXV[lane] <- 1`, whatever the lane held. -/
def Obligations.LdPxResult : Prop :=
  ∀ (lane : Fin 8) (rgb : Pixel) (s : State),
    (encode (.ldPx lane rgb)).toNat = 0x10000000 + lane.val * 2 ^ 24 + rgb.toNat
    ∧ (s.stopped = false → exec (.ldPx lane rgb) s = .next { s with
        px := s.px.set lane (some rgb), pxv := s.pxv ||| (1#8 <<< lane.val) })

/-- R72: LDROW's word and its effect in RUN mode, Y = TILEIDX ∥ ROWCNT: with all eight cells admitted every lane takes
its cell of row Y and PXV is 0xFF; else GridRange with Y ∥ x, x the first refused cell in the order 7, 6, ..., 0, and
no lane and no valid bit changes. -/
def Obligations.LdRowResult : Prop :=
  encode .ldRow = 0x20000000#32
  ∧ ∀ s : State, s.stopped = false →
    ((∀ x : Fin 8, gridRead s.grid x (s.tileidx ++ s.rowcnt) ≠ none) →
      exec .ldRow s = .next { s with
        px := Vector.ofFn (fun x : Fin 8 => gridRead s.grid x (s.tileidx ++ s.rowcnt)), pxv := 0xFF#8 })
    ∧ ∀ x : Fin 8, gridRead s.grid x (s.tileidx ++ s.rowcnt) = none →
      (∀ c : Fin 8, x < c → gridRead s.grid c (s.tileidx ++ s.rowcnt) ≠ none) →
      exec .ldRow s = .next { s with
        status := { s.status with fault := true, fcode := .gridRange },
        finfo := (((s.tileidx ++ s.rowcnt : BitVec 19) ++ BitVec.ofNat 3 x.val : BitVec 22)).setWidth 32 }

/-- R32: GridRead answers GRID(x, y) exactly for x < W and y < H, and a refusal raises GridRange. That in RUN mode LDROW
records no fault if and only if W >= 8 and Y < H is the spec's own inference ("an LDROW is admitted if and only if
W >= 8 and Y < H", marked derived in R32). -/
def Obligations.LdRowAdmission : Prop :=
  (∀ (g : Grid) (x : Fin 8) (y : BitVec 19), gridRead g x y
      = if x.val < g.width ∧ y.toNat < g.height then some (cellColour x.val y.toNat g.cells) else none)
  ∧ ∀ s : State, s.stopped = false →
    ((∃ t, exec .ldRow s = .next t ∧ t.status.fault = false)
        ↔ 8 ≤ s.grid.width ∧ (scanPos s).toNat < s.grid.height)
    ∧ (¬(8 ≤ s.grid.width ∧ (scanPos s).toNat < s.grid.height) →
        ∃ t, exec .ldRow s = .next t ∧ t.status.fault = true ∧ t.status.fcode = .gridRange)

/-- R138: where the row is not admitted, nothing changes but the fault record; FINFO[21:3] = Y and FINFO[2:0] = 7,
since for a rectangular grid the first refused cell is always x = 7. -/
def Obligations.GridRangeFault : Prop :=
  ∀ s : State, s.stopped = false → ¬(8 ≤ s.grid.width ∧ (scanPos s).toNat < s.grid.height) →
    ∃ t, exec .ldRow s = .next t
      ∧ t = { s with status := { s.status with fault := true, fcode := .gridRange }, finfo := t.finfo }
      ∧ t.finfo.extractLsb' 3 19 = scanPos s ∧ t.finfo.extractLsb' 0 3 = 7#3 ∧ t.finfo.extractLsb' 22 10 = 0#10

/-- R70: LDPX and LDROW write only PX and PXV, and on a fault STATUS and FINFO; they never change ROWCNT, TILEIDX,
TBUF, INK, LIMIT, PTD, PTDROWS or DONE and never emit; in STOPPED mode they are dropped. LDPX records no fault and
leaves the other lanes. A lane that already holds a value is overwritten. -/
def Obligations.LaneLoadFrame : Prop :=
  ∀ (i : Instr) (s t : State), ((∃ lane rgb, i = .ldPx lane rgb) ∨ i = .ldRow) → exec i s = .next t →
    (t.rowcnt = s.rowcnt ∧ t.tileidx = s.tileidx ∧ t.tbuf = s.tbuf ∧ t.ink = s.ink ∧ t.limit = s.limit
      ∧ t.status.ptd = s.status.ptd ∧ t.status.ptdrows = s.status.ptdrows ∧ t.status.done = s.status.done)
    ∧ (t.status.fault = s.status.fault → t.status = s.status ∧ t.finfo = s.finfo)
    ∧ (t.status.fault ≠ s.status.fault → t.px = s.px ∧ t.pxv = s.pxv)
    ∧ (s.stopped = true → t = s)
    ∧ (∀ lane rgb, i = .ldPx lane rgb → t.status = s.status ∧ t.finfo = s.finfo
        ∧ (s.stopped = false → t.px[lane] = some rgb ∧ t.pxv.getLsbD lane.val = true)
        ∧ ∀ x : Fin 8, x ≠ lane → t.px[x] = s.px[x] ∧ t.pxv.getLsbD x.val = s.pxv.getLsbD x.val)
    ∧ (i = .ldRow → s.stopped = false → t.status.fault = false →
        t.pxv = 0xFF#8 ∧ ∀ x : Fin 8, t.px[x] = gridRead s.grid x (scanPos s))
    ∧ (∀ x y, t.grid.read x y = s.grid.read x y) ∧ (∀ k : Nat, t.out[k]? = s.out[k]?) ∧ t.inputs = s.inputs

/-! ### The row byte (42_pack.md R80 to R83) -/

/-- R80: Pack8 is the sum of the weights of the columns whose pixel equals the ink. -/
def Obligations.RowByteIsWeightedSum : Prop :=
  ∀ (ink : Pixel) (p : Vector Pixel 8), (pack8 ink p).toNat
    = (if p[0] = ink then 1 else 0) * 2 ^ 7 + (if p[1] = ink then 1 else 0) * 2 ^ 6
      + (if p[2] = ink then 1 else 0) * 2 ^ 5 + (if p[3] = ink then 1 else 0) * 2 ^ 4
      + (if p[4] = ink then 1 else 0) * 2 ^ 3 + (if p[5] = ink then 1 else 0) * 2 ^ 2
      + (if p[6] = ink then 1 else 0) * 2 ^ 1 + (if p[7] = ink then 1 else 0) * 2 ^ 0

/-- R82: the byte is the concatenation M[0] ∥ ... ∥ M[7], that is byte[7 - x] = M[x], that is the sum of M[x] times
its weight 128, 64, ..., 1; M[x] = 1 exactly when all 24 bits agree (R81). -/
def Obligations.RowByteWiring : Prop :=
  ∀ (ink : Pixel) (p : Vector Pixel 8),
    pack8 ink p = wiredByte ink p
    ∧ (∀ x : Fin 8, (pack8 ink p).getLsbD (7 - x.val) = decide (p[x] = ink))
    ∧ (∀ x : Fin 8, matchBit ink p x = if p[x] = ink then 1#1 else 0#1)
    ∧ (pack8 ink p).toNat
        = (matchBit ink p 0).toNat * 128 + (matchBit ink p 1).toNat * 64 + (matchBit ink p 2).toNat * 32
          + (matchBit ink p 3).toNat * 16 + (matchBit ink p 4).toNat * 8 + (matchBit ink p 5).toNat * 4
          + (matchBit ink p 6).toNat * 2 + (matchBit ink p 7).toNat * 1

/-- The sum of step 1a never carries: the adder, the OR network and plain wiring give the same byte, and the exact sum
needs no more than the eight bits. -/
def Obligations.AdderOrAndWiringAgree : Prop :=
  ∀ (ink : Pixel) (p : Vector Pixel 8),
    weightedSum ink p ≤ 255 ∧ (pack8 ink p).toNat = weightedSum ink p
      ∧ orByte ink p = pack8 ink p ∧ wiredByte ink p = orByte ink p

/-- All eight pixels are ink exactly when the byte is 255, none is exactly when it is 0. -/
def Obligations.RowByteExtremes : Prop :=
  ∀ (ink : Pixel) (p : Vector Pixel 8),
    (pack8 ink p = 255#8 ↔ ∀ x : Fin 8, p[x] = ink) ∧ (pack8 ink p = 0#8 ↔ ∀ x : Fin 8, p[x] ≠ ink)

/-! ### PACK (42_pack.md R84 to R87) -/

/-- R140: in RUN mode with PXV != 0xFF nothing changes but the fault record: FCODE 4, FINFO[7:0] = PXV. So PXV, PX,
TBUF and ROWCNT keep their values, also at a tile boundary with no label left. -/
def Obligations.PackLaneUndefined : Prop :=
  ∀ s : State, s.stopped = false → s.pxv ≠ 0xFF#8 → exec .pack s = .next { s with
    status := { s.status with fault := true, fcode := .laneUndefined }, finfo := s.pxv.setWidth 32 }

/-- PACK away from a tile boundary: the byte of the INK now is appended at TBUF[ROWCNT], ROWCNT advances, the lanes
are consumed, nothing is emitted. -/
def Obligations.PackAppendsRow : Prop :=
  encode .pack = 0x21000000#32
  ∧ ∀ (s : State) (p : Vector Pixel 8), s.stopped = false → s.pxv = 0xFF#8 → (∀ x : Fin 8, s.px[x] = some p[x]) →
    s.rowcnt ≠ 7#3 →
    exec .pack s = .next { s with
      px := Vector.replicate 8 none, pxv := 0x00#8,
      tbuf := s.tbuf.set s.rowcnt.toNat (some (pack8 s.ink p)) s.rowcnt.isLt,
      rowcnt := s.rowcnt + 1#3 }

/-- PACK at a tile boundary with a label: the record (TILEIDX, the seven buffered bytes and the new one) is appended to
OUT, TILEIDX advances, the buffer is emptied. -/
def Obligations.PackEmitsTile : Prop :=
  ∀ (s : State) (p : Vector Pixel 8) (b : Vector Byte 8), s.stopped = false → s.pxv = 0xFF#8 →
    (∀ x : Fin 8, s.px[x] = some p[x]) → s.rowcnt = 7#3 → s.tileidx < s.limit →
    (∀ k : Fin 8, k.val < 7 → s.tbuf[k] = some b[k]) → b[7] = pack8 s.ink p →
    exec .pack s = .next { s with
      px := Vector.replicate 8 none, pxv := 0x00#8, tbuf := Vector.replicate 8 none, rowcnt := 0#3,
      tileidx := s.tileidx + 1#16, out := s.out ++ [{ idx := s.tileidx, b := b }] }

/-- R137: PACK at a tile boundary with TILEIDX >= LIMIT: ROWCNT 0, TBUF emptied, lanes consumed, TILEIDX unchanged, no
Emit, FCODE 1, FINFO = TILEIDX, which is also the number of records the run emitted. -/
def Obligations.PackOutOfLabels : Prop :=
  ∀ (s : State) (p : Vector Pixel 8), s.stopped = false → s.pxv = 0xFF#8 → (∀ x : Fin 8, s.px[x] = some p[x]) →
    s.rowcnt = 7#3 → s.limit ≤ s.tileidx →
    exec .pack s = .next { s with
      px := Vector.replicate 8 none, pxv := 0x00#8, tbuf := Vector.replicate 8 none, rowcnt := 0#3,
      status := { s.status with fault := true, fcode := .outOfLabels }, finfo := s.tileidx.setWidth 32 }
    ∧ ∀ before, runRecords before s → s.out.length = before.length + s.tileidx.toNat

/-- R87: a PACK that passes the lane check leaves PXV = 0x00, also when its finalize raises OutOfLabels, and no lane
holds a value then: a PACK right after it, in RUN mode, raises LaneUndefined with FINFO 0. -/
def Obligations.PackConsumesLanes : Prop :=
  ∀ s t : State, s.stopped = false → s.pxv = 0xFF#8 → exec .pack s = .next t →
    t.pxv = 0x00#8 ∧ (∀ x : Fin 8, t.px[x] = none)
    ∧ (t.stopped = false → ∃ u, exec .pack t = .next u ∧ u.status.fault = true
        ∧ u.status.fcode = .laneUndefined ∧ u.finfo = 0#32)

/-- What PACK leaves unchanged; the one record it may append stands at the end of OUT. -/
def Obligations.PackFrame : Prop :=
  ∀ s t : State, exec .pack s = .next t →
    (t.ink = s.ink ∧ t.limit = s.limit ∧ t.status.ptd = s.status.ptd ∧ t.status.ptdrows = s.status.ptdrows
      ∧ t.status.done = s.status.done ∧ t.inputs = s.inputs)
    ∧ (∀ x y, t.grid.read x y = s.grid.read x y)
    ∧ (∀ k : Nat, k < s.out.length → t.out[k]? = s.out[k]?)
    ∧ (¬(s.stopped = false ∧ s.pxv = 0xFF#8 ∧ s.rowcnt = 7#3 ∧ s.tileidx < s.limit) →
        t.out = s.out ∧ t.tileidx = s.tileidx)
    ∧ (s.stopped = false ∧ s.pxv = 0xFF#8 ∧ s.rowcnt = 7#3 ∧ s.tileidx < s.limit →
        ∃ b, t.out = s.out ++ [{ idx := s.tileidx, b := b }])
    ∧ (s.rowcnt ≠ 7#3 → ∀ k : Fin 8, k.val ≠ s.rowcnt.toNat → t.tbuf[k] = s.tbuf[k])
    ∧ (t.status.fault = s.status.fault → t.status = s.status ∧ t.finfo = s.finfo)

/-! ### Faults (60_exceptions.md) -/

/-- R136: recording a fault writes FAULT, FCODE and FINFO, and no other register; nothing is emitted; the mode is
STOPPED. -/
def Obligations.FaultRecord : Prop :=
  ∀ (code : FCode) (info : BitVec 32) (s : State),
    raise code info s = { s with
      status := { fault := true, fcode := code, ptd := s.status.ptd, ptdrows := s.status.ptdrows, done := s.status.done },
      finfo := info }
    ∧ (raise code info s).stopped = true

/-- R135: the four faults, who raises each and with what information; SETINK, SETLIM, START, END and LDPX raise
none. -/
def Obligations.FaultsAndTheirCauses : Prop :=
  ∀ (s t : State) (w : Word), s.status.fault = false → step (present w s) = .next t → t.status.fault = true →
    s.status.done = false
    ∧ ((decode w = .ok .pack ∧ s.pxv = 0xFF#8 ∧ s.rowcnt = 7#3 ∧ s.limit ≤ s.tileidx
          ∧ t.status.fcode.code = 1#3 ∧ t.finfo = s.tileidx.setWidth 32)
      ∨ (decode w = .ok .ldRow ∧ t.status.fcode.code = 2#3
          ∧ ∃ x : Fin 8, gridRead s.grid x (scanPos s) = none
            ∧ (∀ c : Fin 8, x < c → gridRead s.grid c (scanPos s) ≠ none)
            ∧ t.finfo = (scanPos s ++ BitVec.ofNat 3 x.val : BitVec 22).setWidth 32)
      ∨ ((∀ i, decode w ≠ .ok i) ∧ t.status.fcode.code = 3#3 ∧ t.finfo = w)
      ∨ (decode w = .ok .pack ∧ s.pxv ≠ 0xFF#8 ∧ t.status.fcode.code = 4#3 ∧ t.finfo = s.pxv.setWidth 32))

/-- R148: START is the only command that leaves STOPPED mode, reset does so too; START clears FAULT, FCODE and FINFO
and stands at scan position 0 with nothing buffered. -/
def Obligations.OnlyStartLeavesStopped : Prop :=
  (∀ (s t : State) (w : Word), s.stopped = true → step (present w s) = .next t → t.stopped = false →
    decode w = .ok .start)
  ∧ (∀ s : State, ∃ t, exec .start s = .next t ∧ t.stopped = false ∧ t.status.fault = false
      ∧ t.status.fcode = .noFault ∧ t.finfo = 0#32 ∧ scanPos t = 0#19 ∧ ∀ k : Fin 8, t.tbuf[k] = none)
  ∧ ∀ s : State, (resetBlock s).stopped = false

/-- R149: in STOPPED mode no fault can be raised: no word but START changes STATUS or FINFO there, so they describe the
first fault since the last START or reset. -/
def Obligations.FirstFaultIsKept : Prop :=
  ∀ (s t : State) (w : Word), s.stopped = true → step (present w s) = .next t → decode w ≠ .ok .start →
    t.status = s.status ∧ t.finfo = s.finfo

/-! ### Reset (10_state.md R25, 70_reset_and_hazards.md R160) -/

/-- R25: the block's registers right after reset, the mode RUN; a reset emits nothing and recalls nothing. -/
def Obligations.ResetValues : Prop :=
  (∀ x : Fin 8, State.reset.px[x] = none) ∧ State.reset.pxv = 0x00#8 ∧ State.reset.rowcnt = 0#3
  ∧ State.reset.tileidx = 0#16 ∧ (∀ k : Fin 8, State.reset.tbuf[k] = none) ∧ State.reset.ink = 0x000000#24
  ∧ State.reset.limit = 0#16 ∧ State.reset.status.word = 0x00000000#32 ∧ State.reset.finfo = 0x00000000#32
  ∧ State.reset.stopped = false ∧ ∀ s : State, (resetBlock s).out = s.out

/-- R160: the reset event, at any time: every register of the block to its reset value, OUT and the grid untouched, a
word presented during it not executed. That the state is the one after SETINK #000000; SETLIM 0; START is the spec's
own inference ("After reset the block is in the same state as after", R160). The event is the model's input (log 9). -/
def Obligations.ResetEvent : Prop :=
  ∀ (s : State) (during : Option Word) (rest : List Input), s.inputs = .reset during :: rest →
    step s = .next { State.reset with grid := s.grid, out := s.out, inputs := rest }
    ∧ ∃ a b : State, exec (.setInk 0x000000#24) { s with inputs := rest } = .next a
      ∧ exec (.setLim 0#16) a = .next b
      ∧ exec .start b = .next { State.reset with grid := s.grid, out := s.out, inputs := rest }

/-- Nothing an earlier run left in lanes, buffer, counters, STATUS or FINFO survives a START: two machines with the same
INK and LIMIT, the same grid, OUT and presented words are the same machine after it. It rests on the spec's own
inference "State left by an earlier run (lanes, buffer, status) has no influence" (R88). -/
def Obligations.StartForgetsEarlierRun : Prop :=
  ∀ s s' : State, s.ink = s'.ink → s.limit = s'.limit → s.grid = s'.grid → s.out = s'.out → s.inputs = s'.inputs →
    exec .start s = exec .start s'

/-! ### Invariants of the machine (10_state.md R27, section 9) -/

/-- The invariants hold right after reset. -/
def Obligations.ResetKeepsInvariants : Prop := State.reset.Inv

/-- Every step keeps the invariants: R12, R27 (i) to (v), R136's "PTD is set only by END, which sets DONE", R21's zero,
and the grid's canonical form (the model's choice, log 3). R27 and the sentence of R136 are the spec's own inferences;
R27 (vi) holds of the STATUS view (StatusRegisterView). -/
def Obligations.StepKeepsInvariants : Prop :=
  ∀ s t : State, s.Inv → step s = .next t → t.Inv

/-- R172's "Every command terminates", as the model has it: in a state that keeps the invariants a step stops only on
two words presented at once (V8, log 10) or on a change of a cell the grid does not have (the model's choice, log 12);
every command word completes. -/
def Obligations.EveryWordCompletes : Prop :=
  ∀ s : State, s.Inv → ((∃ t, step s = .next t)
    ↔ (¬(∃ a b rest, s.inputs = .twoWords a b :: rest)
      ∧ ¬∃ x y rgb rest, s.inputs = .setCell x y rgb :: rest ∧ ¬(x < s.grid.width ∧ y < s.grid.height)))

/-- The records of a run: those emitted since the last START or reset carry the indices 0, 1, ..., TILEIDX - 1 in that
order, each once (R27 (viii), the spec's own inference). A step with neither START nor reset presented keeps it; START
and reset begin it. -/
def Obligations.RunRecordsAreNumbered : Prop :=
  (∀ (before : List Tile) (s t : State), runRecords before s → step s = .next t →
    (∀ w rest, s.inputs = .word w :: rest → decode w ≠ .ok .start) →
    (∀ d rest, s.inputs ≠ .reset d :: rest) → runRecords before t)
  ∧ (∀ s t : State, exec .start s = .next t → runRecords s.out t)
  ∧ (∀ s : State, runRecords s.out (resetBlock s))

/-- TILEIDX stays within LIMIT unless a SETLIM sets LIMIT below it, and it never wraps: a step leaves it, clears it, or
raises it by exactly 1 (the spec's own inferences, R27 (vii) and R15's "the counter never wraps"). -/
def Obligations.TileIndexWithinLimit : Prop :=
  ∀ (s t : State) (w : Word), step (present w s) = .next t →
    (s.tileidx ≤ s.limit → (∀ n, decode w = .ok (.setLim n) → s.tileidx ≤ n) → t.tileidx ≤ t.limit)
    ∧ (t.tileidx = s.tileidx ∨ t.tileidx = 0#16
        ∨ (decode w = .ok .pack ∧ s.tileidx < s.limit ∧ t.tileidx.toNat = s.tileidx.toNat + 1))

/-- The scan position: Y = 8 * TILEIDX + ROWCNT; a PACK in RUN mode that completes without a fault advances it by
exactly 1; START and reset set it to 0; END in RUN mode and a PACK that raises OutOfLabels set its low three bits to 0
and keep the others; SETINK, SETLIM, LDPX and LDROW leave it (R13). -/
def Obligations.ScanPositionMoves : Prop :=
  (∀ s : State, (scanPos s).toNat = 8 * s.tileidx.toNat + s.rowcnt.toNat)
  ∧ (∀ s t : State, s.stopped = false → exec .pack s = .next t → t.status.fault = false →
      (scanPos t).toNat = (scanPos s).toNat + 1)
  ∧ (∀ s t : State, exec .start s = .next t → scanPos t = 0#19)
  ∧ (∀ s : State, scanPos (resetBlock s) = 0#19)
  ∧ (∀ s t : State, s.stopped = false → exec .endRun s = .next t →
      (scanPos t).extractLsb' 0 3 = 0#3 ∧ (scanPos t).extractLsb' 3 16 = (scanPos s).extractLsb' 3 16)
  ∧ (∀ s t : State, s.stopped = false → exec .pack s = .next t → t.status.fcode = .outOfLabels →
      s.status.fcode ≠ .outOfLabels →
      (scanPos t).extractLsb' 0 3 = 0#3 ∧ (scanPos t).extractLsb' 3 16 = (scanPos s).extractLsb' 3 16)
  ∧ ∀ (i : Instr) (s t : State), i ≠ .pack → i ≠ .start → i ≠ .endRun → exec i s = .next t → scanPos t = scanPos s

/-- A step never changes or removes an emitted record; it appends at most one, and only a PACK word does so. -/
def Obligations.OutIsAppendOnly : Prop :=
  ∀ s t : State, step s = .next t →
    t.out = s.out
    ∨ ∃ r w rest, t.out = s.out ++ [r] ∧ r.idx = s.tileidx ∧ s.inputs = .word w :: rest ∧ decode w = .ok .pack

/-- No command word changes the grid: the block only reads it. -/
def Obligations.BlockNeverWritesGrid : Prop :=
  ∀ s t : State, nextIsWord s → step s = .next t → t.grid = s.grid

/-- R89: SETINK ink; SETLIM n; SCAN h, issued in any state of the machine, on a grid with W >= 8 and H >= h, with
N = floor(h / 8). (a) N <= n: exactly N records, idx 0..N-1 in order, each byte the row function of its grid row; the
run ends with DONE, TILEIDX = N, ROWCNT = 0, and PTD and PTDROWS = h mod 8 if that is not 0. (b) N > n: exactly n
records, nothing recorded before the PACK of row 8n + 7, which raises OutOfLabels with FINFO = n; the later words
change nothing. (c) h = 8N: with no pixel of columns 0..7 equal to ink every byte is 0, with every one equal 255. R89
is marked by the spec as its own inference from the command rules. -/
def Obligations.ScanRunResult : Prop :=
  ∀ (s : State) (ink : Pixel) (n : BitVec 16) (h : Nat), 8 ≤ s.grid.width → h ≤ s.grid.height →
    ∃ t, issue (encodeWords ink n h) s = .next t
      ∧ (h / 8 ≤ n.toNat →
          t.out = s.out ++ (List.range (h / 8)).map (gridTile ink s.grid)
          ∧ t.status = { fault := false, fcode := .noFault, ptd := decide (h % 8 ≠ 0),
                         ptdrows := BitVec.ofNat 3 (h % 8), done := true }
          ∧ t.tileidx.toNat = h / 8 ∧ t.rowcnt = 0#3
          ∧ (h % 8 = 0 → (∀ (x : Fin 8) (y : Nat), y < h → s.grid.read x.val y ≠ some ink) →
              t.out = s.out ++ (List.range (h / 8)).map
                (fun i => { idx := BitVec.ofNat 16 i, b := Vector.replicate 8 0#8 }))
          ∧ (h % 8 = 0 → (∀ (x : Fin 8) (y : Nat), y < h → s.grid.read x.val y = some ink) →
              t.out = s.out ++ (List.range (h / 8)).map
                (fun i => { idx := BitVec.ofNat 16 i, b := Vector.replicate 8 255#8 })))
      ∧ (n.toNat < h / 8 →
          t.out = s.out ++ (List.range n.toNat).map (gridTile ink s.grid)
          ∧ t.status = { fault := true, fcode := .outOfLabels, ptd := false, ptdrows := 0#3, done := false }
          ∧ t.finfo.toNat = n.toNat ∧ t.tileidx = n ∧ t.rowcnt = 0#3
          ∧ (∃ u, issue ([encode (.setInk ink), encode (.setLim n), encode .start]
                ++ (List.replicate (8 * n.toNat + 7) rowWords).flatten) s = .next u ∧ u.status = Status.clear
              ∧ issue rowWords u = .next t))

/-! ### Registers as the host sees them (10_state.md R19, R20, R26) and the record (20_memory.md R40) -/

/-- R20's bit places: FAULT [0], FCODE [3:1] with its codes, PTD [4], PTDROWS [7:5], DONE [8], [31:9] zero. -/
def Obligations.StatusRegisterView : Prop :=
  (∀ t : Status,
    t.word.getLsbD 0 = t.fault ∧ t.word.extractLsb' 1 3 = t.fcode.code ∧ t.word.getLsbD 4 = t.ptd
    ∧ t.word.extractLsb' 5 3 = t.ptdrows ∧ t.word.getLsbD 8 = t.done ∧ t.word.extractLsb' 9 23 = 0#23)
  ∧ FCode.noFault.code = 0#3 ∧ FCode.outOfLabels.code = 1#3 ∧ FCode.gridRange.code = 2#3
  ∧ FCode.illegalCommand.code = 3#3 ∧ FCode.laneUndefined.code = 4#3

/-- The five registers the host observes; SCANPOS[18:3] = TILEIDX and SCANPOS[2:0] = ROWCNT; nothing it sees depends on
PX, PXV or TBUF. -/
def Obligations.HostSeesFiveRegisters : Prop :=
  (∀ s : State, s.hostView.ink = s.ink ∧ s.hostView.limit = s.limit ∧ s.hostView.status = s.status.word
    ∧ s.hostView.finfo = s.finfo ∧ s.hostView.scanpos.extractLsb' 3 16 = s.tileidx
    ∧ s.hostView.scanpos.extractLsb' 0 3 = s.rowcnt)
  ∧ ∀ s t : State, t.ink = s.ink → t.limit = s.limit → t.tileidx = s.tileidx → t.rowcnt = s.rowcnt →
      t.status = s.status → t.finfo = s.finfo → t.hostView = s.hostView

/-- R40: the flat form of a TILE record: idx in [79:64], b[k] in the byte whose lowest bit is 56 - 8k; it loses
nothing. -/
def Obligations.FlatRecordFields : Prop :=
  (∀ r : Tile, r.flat.extractLsb' 64 16 = r.idx
    ∧ ∀ k : Fin 8, r.flat.extractLsb' (56 - 8 * k.val) 8 = r.b[k])
  ∧ ∀ r r' : Tile, r.flat = r'.flat → r = r'

/-! ### The grid as data (model's form, log 3) and the platform's change of a cell (20_memory.md R37) -/

/-- The model's choice of form (log 3): two grids in canonical form with the same W and H that answer every read alike
are the same data. -/
def Obligations.CanonicalGridsAreEqual : Prop :=
  ∀ g g' : Grid, Memory.wf g = true → Memory.wf g' = true → g.width = g'.width → g.height = g'.height →
    (∀ x y, g.read x y = g'.read x y) → g = g'

/-- The platform's change of a cell between two commands is seen by every later read, and changes nothing else; it is
the model's input event (log 11, log 12), the rule that each read returns what the cell holds then is R37's. -/
def Obligations.CellChangeIsSeen : Prop :=
  ∀ (s : State) (x y : Nat) (rgb : Pixel) (rest : List Input), Memory.wf s.grid = true →
    s.inputs = .setCell x y rgb :: rest → x < s.grid.width → y < s.grid.height →
    ∃ t, step s = .next t ∧ t = { s with inputs := rest, grid := t.grid } ∧ t.grid.width = s.grid.width
      ∧ t.grid.height = s.grid.height ∧ t.grid.read x y = some rgb
      ∧ ∀ u v, ¬(u = x ∧ v = y) → t.grid.read u v = s.grid.read u v

/-- Two words presented at once have no meaning: the step is refused by name (V8; log 10). -/
def Obligations.TwoWordsAreRefused : Prop :=
  ∀ (s : State) (a b : Word) (rest : List Input), s.inputs = .twoWords a b :: rest →
    step s = .refused .twoWordsAtOnce

/-! ### Host rules (44_host_formatter.md) -/

/-- R116: dec(v) is the decimal numeral of v: digits only, no leading zero, and read as a number it is v. -/
def Obligations.DecimalNumeral : Prop :=
  ∀ v : Byte, (dec v).length ≤ 3 ∧ (∀ c ∈ dec v, '0' ≤ c ∧ c ≤ '9')
    ∧ (dec v).foldl (fun acc c => 10 * acc + (c.toNat - 48)) 0 = v.toNat
    ∧ (dec v = ['0'] ∨ (dec v).head? ≠ some '0') ∧ dec v ≠ []

/-- R117: ljust(s, n) is s followed by max(0, n - len(s)) spaces; if len(s) >= n it is s unchanged. -/
def Obligations.LeftJustify : Prop :=
  ∀ (t : Text) (n : Nat), (ljust t n).take t.length = t ∧ (ljust t n).length = max n t.length
    ∧ (∀ c ∈ (ljust t n).drop t.length, c = ' ') ∧ (n ≤ t.length → ljust t n = t)

/-- The data line: token and label first, the keyword at the label column for a label that fits, directly after it for
one that does not (nothing cut off), then four spaces and the eight numerals with seven commas. -/
def Obligations.DataLineLayout : Prop :=
  ∀ (p : FormatParams) (label : Text) (b : Vector Byte 8),
    (dataLine p label b).take (3 + label.length) = ['g', 'f', 'x'] ++ label
    ∧ (dataLine p label b).drop (max p.colw (3 + label.length))
        = p.keyword ++ [' ', ' ', ' ', ' '] ++ (dec b[0] ++ ',' :: dec b[1] ++ ',' :: dec b[2] ++ ',' :: dec b[3]
          ++ ',' :: dec b[4] ++ ',' :: dec b[5] ++ ',' :: dec b[6] ++ ',' :: dec b[7])
    ∧ ∀ j : Nat, 3 + label.length ≤ j → j < p.colw → (dataLine p label b)[j]? = some ' '

/-- R121 and R120: a run's records give two lines each, in emission order: line 2i is the comment of record i's label,
line 2i + 1 its data line; there is no line sequence only if some record has no label. -/
def Obligations.LineSequenceOfRun : Prop :=
  ∀ (p : FormatParams) (labels : List Text) (records : List Tile),
    (∀ ls, runLines p labels records = some ls → ls.length = 2 * records.length
      ∧ ∀ (i : Nat) (r : Tile), records[i]? = some r → ∃ label, labels[r.idx.toNat]? = some label
        ∧ ls[2 * i]? = some (commentLine label) ∧ ls[2 * i + 1]? = some (dataLine p label r.b))
    ∧ ((∀ r ∈ records, r.idx.toNat < labels.length) → ∃ ls, runLines p labels records = some ls)

/-- R123: a list of more than 65535 labels is refused before any word is issued: the machine is untouched. Any height
is accepted: a grid (8 columns or wider) that needs more than 65535 tiles ends in OutOfLabels. -/
def Obligations.TooManyLabelsRefused : Prop :=
  ∀ (p : FormatParams) (g : Grid) (ink : Pixel) (labels : List Text) (s : State),
    (65535 < labels.length → hostEncode p g ink labels s = (.tooManyLabels, s))
    ∧ (labels.length ≤ 65535 → 65535 < g.height / 8 → 8 ≤ g.width →
        (hostEncode p g ink labels s).1 = .outOfLabels (BitVec.ofNat 32 labels.length))

/-- The encode contract, from any state of the machine, for at most 65535 labels: on a grid of W >= 8 the error
OutOfLabels(len(labels)) exactly when H/8 (rounded down) exceeds len(labels), else the lines of the grid's tiles with
the warning of the dropped rows; on a narrower grid with a row to read, ImageLoadError. It rests on the spec's own
inference that no other fault can occur in an encode (R122). -/
def Obligations.EncodeContract : Prop :=
  ∀ (p : FormatParams) (g : Grid) (ink : Pixel) (labels : List Text) (s : State), labels.length ≤ 65535 →
    (8 ≤ g.width → labels.length < g.height / 8 →
      (hostEncode p g ink labels s).1 = .outOfLabels (BitVec.ofNat 32 labels.length))
    ∧ (8 ≤ g.width → g.height / 8 ≤ labels.length →
      ∃ ls, runLines p labels ((List.range (g.height / 8)).map (gridTile ink g)) = some ls
        ∧ (hostEncode p g ink labels s).1
            = .lines ls (if g.height % 8 = 0 then none else some (BitVec.ofNat 3 (g.height % 8))))
    ∧ (g.width < 8 → 0 < g.height → (hostEncode p g ink labels s).1 = .imageLoadError)

/-- The sink is written once and only after encode returned a line sequence; an error of encode writes nothing, and
without a decoded image no command is issued. LINE_END stands after each line (the model's choice, log 14). -/
def Obligations.SinkOnlyAfterSuccess : Prop :=
  ∀ (p : FormatParams) (image : Option Grid) (writable : Bool) (ink : Pixel) (labels : List Text) (s : State),
    (∀ text dropped, (convert p image writable ink labels s).1 = .written text dropped →
      writable = true ∧ ∃ g ls, image = some g ∧ (hostEncode p g ink labels s).1 = .lines ls dropped
        ∧ text = sinkText p ls)
    ∧ (∀ g info, image = some g → (hostEncode p g ink labels s).1 = .outOfLabels info →
        (convert p image writable ink labels s).1 = .outOfLabels info)
    ∧ (image = none → convert p image writable ink labels s = (.imageLoadError, s))

/-- R60's table: each example line assembles to the word beside it, and operands out of range give no word. That blanks
separate a mnemonic from its operands is the model's choice (log 13). -/
def Obligations.AssemblerExamples : Prop :=
  assembleLine "SETINK #000000".toList = .ok [0x01000000#32]
  ∧ assembleLine "SETLIM 2".toList = .ok [0x02000002#32]
  ∧ assembleLine "START".toList = .ok [0x03000000#32]
  ∧ assembleLine "END".toList = .ok [0x04000000#32]
  ∧ assembleLine "LDPX 3, #FF0000".toList = .ok [0x13FF0000#32]
  ∧ assembleLine "LDROW".toList = .ok [0x20000000#32]
  ∧ assembleLine "PACK".toList = .ok [0x21000000#32]
  ∧ assembleLine "LDPX 8, #FF0000".toList = .error .laneOutOfRange
  ∧ assembleLine "SETLIM 65536".toList = .error .numberOutOfRange
  ∧ assembleLine "SETINK #00000".toList = .error .badColour
end

