-- ==== Sys2Proof/Laws/State.lean ====
section
/-! SUPPORT. What each named state update does to each field, true by rfl, so that no proof unfolds a record update. -/

namespace Sys2Proof.Machine

@[simp] theorem emit_px (t : Tile) (s : State) : (emit t s).px = s.px := rfl
@[simp] theorem emit_pxv (t : Tile) (s : State) : (emit t s).pxv = s.pxv := rfl
@[simp] theorem emit_rowcnt (t : Tile) (s : State) : (emit t s).rowcnt = s.rowcnt := rfl
@[simp] theorem emit_tileidx (t : Tile) (s : State) : (emit t s).tileidx = s.tileidx := rfl
@[simp] theorem emit_tbuf (t : Tile) (s : State) : (emit t s).tbuf = s.tbuf := rfl
@[simp] theorem emit_ink (t : Tile) (s : State) : (emit t s).ink = s.ink := rfl
@[simp] theorem emit_limit (t : Tile) (s : State) : (emit t s).limit = s.limit := rfl
@[simp] theorem emit_status (t : Tile) (s : State) : (emit t s).status = s.status := rfl
@[simp] theorem emit_finfo (t : Tile) (s : State) : (emit t s).finfo = s.finfo := rfl
@[simp] theorem emit_grid (t : Tile) (s : State) : (emit t s).grid = s.grid := rfl
@[simp] theorem emit_out (t : Tile) (s : State) : (emit t s).out = s.out ++ [t] := rfl
@[simp] theorem emit_inputs (t : Tile) (s : State) : (emit t s).inputs = s.inputs := rfl

@[simp] theorem writeLane_px (lane : Fin 8) (rgb : Pixel) (s : State) : (writeLane lane rgb s).px = s.px.set lane (some rgb) := rfl
@[simp] theorem writeLane_pxv (lane : Fin 8) (rgb : Pixel) (s : State) : (writeLane lane rgb s).pxv = s.pxv ||| laneMask lane := rfl
@[simp] theorem writeLane_rowcnt (lane : Fin 8) (rgb : Pixel) (s : State) : (writeLane lane rgb s).rowcnt = s.rowcnt := rfl
@[simp] theorem writeLane_tileidx (lane : Fin 8) (rgb : Pixel) (s : State) : (writeLane lane rgb s).tileidx = s.tileidx := rfl
@[simp] theorem writeLane_tbuf (lane : Fin 8) (rgb : Pixel) (s : State) : (writeLane lane rgb s).tbuf = s.tbuf := rfl
@[simp] theorem writeLane_ink (lane : Fin 8) (rgb : Pixel) (s : State) : (writeLane lane rgb s).ink = s.ink := rfl
@[simp] theorem writeLane_limit (lane : Fin 8) (rgb : Pixel) (s : State) : (writeLane lane rgb s).limit = s.limit := rfl
@[simp] theorem writeLane_status (lane : Fin 8) (rgb : Pixel) (s : State) : (writeLane lane rgb s).status = s.status := rfl
@[simp] theorem writeLane_finfo (lane : Fin 8) (rgb : Pixel) (s : State) : (writeLane lane rgb s).finfo = s.finfo := rfl
@[simp] theorem writeLane_grid (lane : Fin 8) (rgb : Pixel) (s : State) : (writeLane lane rgb s).grid = s.grid := rfl
@[simp] theorem writeLane_out (lane : Fin 8) (rgb : Pixel) (s : State) : (writeLane lane rgb s).out = s.out := rfl
@[simp] theorem writeLane_inputs (lane : Fin 8) (rgb : Pixel) (s : State) : (writeLane lane rgb s).inputs = s.inputs := rfl

@[simp] theorem writeLanes_px (v : Vector (Option Pixel) 8) (s : State) : (writeLanes v s).px = v := rfl
@[simp] theorem writeLanes_pxv (v : Vector (Option Pixel) 8) (s : State) : (writeLanes v s).pxv = 0xFF#8 := rfl
@[simp] theorem writeLanes_rowcnt (v : Vector (Option Pixel) 8) (s : State) : (writeLanes v s).rowcnt = s.rowcnt := rfl
@[simp] theorem writeLanes_tileidx (v : Vector (Option Pixel) 8) (s : State) : (writeLanes v s).tileidx = s.tileidx := rfl
@[simp] theorem writeLanes_tbuf (v : Vector (Option Pixel) 8) (s : State) : (writeLanes v s).tbuf = s.tbuf := rfl
@[simp] theorem writeLanes_ink (v : Vector (Option Pixel) 8) (s : State) : (writeLanes v s).ink = s.ink := rfl
@[simp] theorem writeLanes_limit (v : Vector (Option Pixel) 8) (s : State) : (writeLanes v s).limit = s.limit := rfl
@[simp] theorem writeLanes_status (v : Vector (Option Pixel) 8) (s : State) : (writeLanes v s).status = s.status := rfl
@[simp] theorem writeLanes_finfo (v : Vector (Option Pixel) 8) (s : State) : (writeLanes v s).finfo = s.finfo := rfl
@[simp] theorem writeLanes_grid (v : Vector (Option Pixel) 8) (s : State) : (writeLanes v s).grid = s.grid := rfl
@[simp] theorem writeLanes_out (v : Vector (Option Pixel) 8) (s : State) : (writeLanes v s).out = s.out := rfl
@[simp] theorem writeLanes_inputs (v : Vector (Option Pixel) 8) (s : State) : (writeLanes v s).inputs = s.inputs := rfl

@[simp] theorem invalidateLanes_px (s : State) : (invalidateLanes s).px = novalueLanes := rfl
@[simp] theorem invalidateLanes_pxv (s : State) : (invalidateLanes s).pxv = 0x00#8 := rfl
@[simp] theorem invalidateLanes_rowcnt (s : State) : (invalidateLanes s).rowcnt = s.rowcnt := rfl
@[simp] theorem invalidateLanes_tileidx (s : State) : (invalidateLanes s).tileidx = s.tileidx := rfl
@[simp] theorem invalidateLanes_tbuf (s : State) : (invalidateLanes s).tbuf = s.tbuf := rfl
@[simp] theorem invalidateLanes_ink (s : State) : (invalidateLanes s).ink = s.ink := rfl
@[simp] theorem invalidateLanes_limit (s : State) : (invalidateLanes s).limit = s.limit := rfl
@[simp] theorem invalidateLanes_status (s : State) : (invalidateLanes s).status = s.status := rfl
@[simp] theorem invalidateLanes_finfo (s : State) : (invalidateLanes s).finfo = s.finfo := rfl
@[simp] theorem invalidateLanes_grid (s : State) : (invalidateLanes s).grid = s.grid := rfl
@[simp] theorem invalidateLanes_out (s : State) : (invalidateLanes s).out = s.out := rfl
@[simp] theorem invalidateLanes_inputs (s : State) : (invalidateLanes s).inputs = s.inputs := rfl

@[simp] theorem appendByte_px (b : Byte) (s : State) : (appendByte b s).px = s.px := rfl
@[simp] theorem appendByte_pxv (b : Byte) (s : State) : (appendByte b s).pxv = s.pxv := rfl
@[simp] theorem appendByte_rowcnt (b : Byte) (s : State) : (appendByte b s).rowcnt = s.rowcnt := rfl
@[simp] theorem appendByte_tileidx (b : Byte) (s : State) : (appendByte b s).tileidx = s.tileidx := rfl
@[simp] theorem appendByte_tbuf (b : Byte) (s : State) : (appendByte b s).tbuf = s.tbuf.set (rowIndex s.rowcnt) (some b) := rfl
@[simp] theorem appendByte_ink (b : Byte) (s : State) : (appendByte b s).ink = s.ink := rfl
@[simp] theorem appendByte_limit (b : Byte) (s : State) : (appendByte b s).limit = s.limit := rfl
@[simp] theorem appendByte_status (b : Byte) (s : State) : (appendByte b s).status = s.status := rfl
@[simp] theorem appendByte_finfo (b : Byte) (s : State) : (appendByte b s).finfo = s.finfo := rfl
@[simp] theorem appendByte_grid (b : Byte) (s : State) : (appendByte b s).grid = s.grid := rfl
@[simp] theorem appendByte_out (b : Byte) (s : State) : (appendByte b s).out = s.out := rfl
@[simp] theorem appendByte_inputs (b : Byte) (s : State) : (appendByte b s).inputs = s.inputs := rfl

@[simp] theorem emptyBuffer_px (s : State) : (emptyBuffer s).px = s.px := rfl
@[simp] theorem emptyBuffer_pxv (s : State) : (emptyBuffer s).pxv = s.pxv := rfl
@[simp] theorem emptyBuffer_rowcnt (s : State) : (emptyBuffer s).rowcnt = 0#3 := rfl
@[simp] theorem emptyBuffer_tileidx (s : State) : (emptyBuffer s).tileidx = s.tileidx := rfl
@[simp] theorem emptyBuffer_tbuf (s : State) : (emptyBuffer s).tbuf = novalueBytes := rfl
@[simp] theorem emptyBuffer_ink (s : State) : (emptyBuffer s).ink = s.ink := rfl
@[simp] theorem emptyBuffer_limit (s : State) : (emptyBuffer s).limit = s.limit := rfl
@[simp] theorem emptyBuffer_status (s : State) : (emptyBuffer s).status = s.status := rfl
@[simp] theorem emptyBuffer_finfo (s : State) : (emptyBuffer s).finfo = s.finfo := rfl
@[simp] theorem emptyBuffer_grid (s : State) : (emptyBuffer s).grid = s.grid := rfl
@[simp] theorem emptyBuffer_out (s : State) : (emptyBuffer s).out = s.out := rfl
@[simp] theorem emptyBuffer_inputs (s : State) : (emptyBuffer s).inputs = s.inputs := rfl

@[simp] theorem raise_px (code : FCode) (info : BitVec 32) (s : State) : (raise code info s).px = s.px := rfl
@[simp] theorem raise_pxv (code : FCode) (info : BitVec 32) (s : State) : (raise code info s).pxv = s.pxv := rfl
@[simp] theorem raise_rowcnt (code : FCode) (info : BitVec 32) (s : State) : (raise code info s).rowcnt = s.rowcnt := rfl
@[simp] theorem raise_tileidx (code : FCode) (info : BitVec 32) (s : State) : (raise code info s).tileidx = s.tileidx := rfl
@[simp] theorem raise_tbuf (code : FCode) (info : BitVec 32) (s : State) : (raise code info s).tbuf = s.tbuf := rfl
@[simp] theorem raise_ink (code : FCode) (info : BitVec 32) (s : State) : (raise code info s).ink = s.ink := rfl
@[simp] theorem raise_limit (code : FCode) (info : BitVec 32) (s : State) : (raise code info s).limit = s.limit := rfl
@[simp] theorem raise_status (code : FCode) (info : BitVec 32) (s : State) : (raise code info s).status = { s.status with fault := true, fcode := code } := rfl
@[simp] theorem raise_finfo (code : FCode) (info : BitVec 32) (s : State) : (raise code info s).finfo = info := rfl
@[simp] theorem raise_grid (code : FCode) (info : BitVec 32) (s : State) : (raise code info s).grid = s.grid := rfl
@[simp] theorem raise_out (code : FCode) (info : BitVec 32) (s : State) : (raise code info s).out = s.out := rfl
@[simp] theorem raise_inputs (code : FCode) (info : BitVec 32) (s : State) : (raise code info s).inputs = s.inputs := rfl

@[simp] theorem beginRun_px (s : State) : (beginRun s).px = novalueLanes := rfl
@[simp] theorem beginRun_pxv (s : State) : (beginRun s).pxv = 0x00#8 := rfl
@[simp] theorem beginRun_rowcnt (s : State) : (beginRun s).rowcnt = 0#3 := rfl
@[simp] theorem beginRun_tileidx (s : State) : (beginRun s).tileidx = 0#16 := rfl
@[simp] theorem beginRun_tbuf (s : State) : (beginRun s).tbuf = novalueBytes := rfl
@[simp] theorem beginRun_ink (s : State) : (beginRun s).ink = s.ink := rfl
@[simp] theorem beginRun_limit (s : State) : (beginRun s).limit = s.limit := rfl
@[simp] theorem beginRun_status (s : State) : (beginRun s).status = Status.clear := rfl
@[simp] theorem beginRun_finfo (s : State) : (beginRun s).finfo = 0#32 := rfl
@[simp] theorem beginRun_grid (s : State) : (beginRun s).grid = s.grid := rfl
@[simp] theorem beginRun_out (s : State) : (beginRun s).out = s.out := rfl
@[simp] theorem beginRun_inputs (s : State) : (beginRun s).inputs = s.inputs := rfl

@[simp] theorem resetBlock_px (s : State) : (resetBlock s).px = novalueLanes := rfl
@[simp] theorem resetBlock_pxv (s : State) : (resetBlock s).pxv = 0x00#8 := rfl
@[simp] theorem resetBlock_rowcnt (s : State) : (resetBlock s).rowcnt = 0#3 := rfl
@[simp] theorem resetBlock_tileidx (s : State) : (resetBlock s).tileidx = 0#16 := rfl
@[simp] theorem resetBlock_tbuf (s : State) : (resetBlock s).tbuf = novalueBytes := rfl
@[simp] theorem resetBlock_ink (s : State) : (resetBlock s).ink = Config.inkReset := rfl
@[simp] theorem resetBlock_limit (s : State) : (resetBlock s).limit = 0#16 := rfl
@[simp] theorem resetBlock_status (s : State) : (resetBlock s).status = Status.clear := rfl
@[simp] theorem resetBlock_finfo (s : State) : (resetBlock s).finfo = 0#32 := rfl
@[simp] theorem resetBlock_grid (s : State) : (resetBlock s).grid = s.grid := rfl
@[simp] theorem resetBlock_out (s : State) : (resetBlock s).out = s.out := rfl
@[simp] theorem resetBlock_inputs (s : State) : (resetBlock s).inputs = s.inputs := rfl

@[simp] theorem setDone_px (s : State) : (setDone s).px = s.px := rfl
@[simp] theorem setDone_pxv (s : State) : (setDone s).pxv = s.pxv := rfl
@[simp] theorem setDone_rowcnt (s : State) : (setDone s).rowcnt = s.rowcnt := rfl
@[simp] theorem setDone_tileidx (s : State) : (setDone s).tileidx = s.tileidx := rfl
@[simp] theorem setDone_tbuf (s : State) : (setDone s).tbuf = s.tbuf := rfl
@[simp] theorem setDone_ink (s : State) : (setDone s).ink = s.ink := rfl
@[simp] theorem setDone_limit (s : State) : (setDone s).limit = s.limit := rfl
@[simp] theorem setDone_status (s : State) : (setDone s).status = { s.status with done := true } := rfl
@[simp] theorem setDone_finfo (s : State) : (setDone s).finfo = s.finfo := rfl
@[simp] theorem setDone_grid (s : State) : (setDone s).grid = s.grid := rfl
@[simp] theorem setDone_out (s : State) : (setDone s).out = s.out := rfl
@[simp] theorem setDone_inputs (s : State) : (setDone s).inputs = s.inputs := rfl

@[simp] theorem emitTile_px (b : Vector Byte 8) (s : State) : (emitTile b s).px = s.px := rfl
@[simp] theorem emitTile_pxv (b : Vector Byte 8) (s : State) : (emitTile b s).pxv = s.pxv := rfl
@[simp] theorem emitTile_rowcnt (b : Vector Byte 8) (s : State) : (emitTile b s).rowcnt = 0#3 := rfl
@[simp] theorem emitTile_tileidx (b : Vector Byte 8) (s : State) : (emitTile b s).tileidx = s.tileidx + 1#16 := rfl
@[simp] theorem emitTile_tbuf (b : Vector Byte 8) (s : State) : (emitTile b s).tbuf = novalueBytes := rfl
@[simp] theorem emitTile_ink (b : Vector Byte 8) (s : State) : (emitTile b s).ink = s.ink := rfl
@[simp] theorem emitTile_limit (b : Vector Byte 8) (s : State) : (emitTile b s).limit = s.limit := rfl
@[simp] theorem emitTile_status (b : Vector Byte 8) (s : State) : (emitTile b s).status = s.status := rfl
@[simp] theorem emitTile_finfo (b : Vector Byte 8) (s : State) : (emitTile b s).finfo = s.finfo := rfl
@[simp] theorem emitTile_grid (b : Vector Byte 8) (s : State) : (emitTile b s).grid = s.grid := rfl
@[simp] theorem emitTile_out (b : Vector Byte 8) (s : State) : (emitTile b s).out = s.out ++ [{ idx := s.tileidx, b := b }] := rfl
@[simp] theorem emitTile_inputs (b : Vector Byte 8) (s : State) : (emitTile b s).inputs = s.inputs := rfl

@[simp] theorem outOfLabels_px (s : State) : (outOfLabels s).px = s.px := rfl
@[simp] theorem outOfLabels_pxv (s : State) : (outOfLabels s).pxv = s.pxv := rfl
@[simp] theorem outOfLabels_rowcnt (s : State) : (outOfLabels s).rowcnt = 0#3 := rfl
@[simp] theorem outOfLabels_tileidx (s : State) : (outOfLabels s).tileidx = s.tileidx := rfl
@[simp] theorem outOfLabels_tbuf (s : State) : (outOfLabels s).tbuf = novalueBytes := rfl
@[simp] theorem outOfLabels_ink (s : State) : (outOfLabels s).ink = s.ink := rfl
@[simp] theorem outOfLabels_limit (s : State) : (outOfLabels s).limit = s.limit := rfl
@[simp] theorem outOfLabels_status (s : State) : (outOfLabels s).status = { s.status with fault := true, fcode := .outOfLabels } := rfl
@[simp] theorem outOfLabels_finfo (s : State) : (outOfLabels s).finfo = outOfLabelsInfo s.tileidx := rfl
@[simp] theorem outOfLabels_grid (s : State) : (outOfLabels s).grid = s.grid := rfl
@[simp] theorem outOfLabels_out (s : State) : (outOfLabels s).out = s.out := rfl
@[simp] theorem outOfLabels_inputs (s : State) : (outOfLabels s).inputs = s.inputs := rfl

@[simp] theorem present_px (w : Word) (s : State) : (present w s).px = s.px := rfl
@[simp] theorem present_pxv (w : Word) (s : State) : (present w s).pxv = s.pxv := rfl
@[simp] theorem present_rowcnt (w : Word) (s : State) : (present w s).rowcnt = s.rowcnt := rfl
@[simp] theorem present_tileidx (w : Word) (s : State) : (present w s).tileidx = s.tileidx := rfl
@[simp] theorem present_tbuf (w : Word) (s : State) : (present w s).tbuf = s.tbuf := rfl
@[simp] theorem present_ink (w : Word) (s : State) : (present w s).ink = s.ink := rfl
@[simp] theorem present_limit (w : Word) (s : State) : (present w s).limit = s.limit := rfl
@[simp] theorem present_status (w : Word) (s : State) : (present w s).status = s.status := rfl
@[simp] theorem present_finfo (w : Word) (s : State) : (present w s).finfo = s.finfo := rfl
@[simp] theorem present_grid (w : Word) (s : State) : (present w s).grid = s.grid := rfl
@[simp] theorem present_out (w : Word) (s : State) : (present w s).out = s.out := rfl
@[simp] theorem present_inputs (w : Word) (s : State) : (present w s).inputs = .word w :: s.inputs := rfl

@[simp] theorem stopped_raise (code : FCode) (info : BitVec 32) (s : State) : (raise code info s).stopped = true := rfl
@[simp] theorem stopped_outOfLabels (s : State) : (outOfLabels s).stopped = true := rfl
@[simp] theorem stopped_beginRun (s : State) : (beginRun s).stopped = false := rfl
@[simp] theorem stopped_resetBlock (s : State) : (resetBlock s).stopped = false := rfl
@[simp] theorem stopped_setDone (s : State) : (setDone s).stopped = true := by simp [State.stopped]

@[simp] theorem scanPos_beginRun (s : State) : scanPos (beginRun s) = 0#19 := by simp [scanPos]
@[simp] theorem scanPos_resetBlock (s : State) : scanPos (resetBlock s) = 0#19 := by simp [scanPos]

@[simp] theorem novalueLanes_getElem (i : Nat) (h : i < 8) : novalueLanes[i] = none := by simp [novalueLanes]
@[simp] theorem novalueBytes_getElem (i : Nat) (h : i < 8) : novalueBytes[i] = none := by simp [novalueBytes]

/-- RUN mode is FAULT = 0 and DONE = 0 (R141). -/
theorem running_iff (s : State) : s.stopped = false ↔ s.status.fault = false ∧ s.status.done = false := by
  simp [State.stopped]

end Sys2Proof.Machine
end

