-- ==== Sys2Proof/Laws/Ops.lean ====
section
/-! SUPPORT. One lemma for each shared operation that says once what it can answer; later proofs cite these and do not
unfold the operation. -/

namespace Sys2Proof.Machine

/-! ### Reading registers that may hold no value -/

/-- A file is read exactly when every register of it holds a value. -/
theorem allSome_eq_some_iff {α : Type} (v : Vector (Option α) 8) (p : Vector α 8) :
    allSome v = some p ↔ ∀ x : Fin 8, v[x] = some p[x] := by
  unfold allSome
  split
  · rename_i h
    constructor
    · intro e x
      injection e with e
      subst e
      simp
    · intro e
      congr 1
      ext i hi
      simp [show v[i] = some p[i] from e ⟨i, hi⟩]
  · rename_i h
    constructor
    · intro e
      cases e
    · intro e
      exact absurd (fun x => by simp [e x]) h

theorem allSome_eq_none_iff {α : Type} (v : Vector (Option α) 8) :
    allSome v = none ↔ ∃ x : Fin 8, v[x] = none := by
  unfold allSome
  split
  · rename_i h
    simp only [reduceCtorEq, false_iff, not_exists]
    intro x e
    have := h x
    simp [e] at this
  · rename_i h
    simpa [not_forall] using h

/-- A lane or buffer file whose registers all hold values is read. -/
theorem allSome_isSome {α : Type} (v : Vector (Option α) 8) (h : ∀ x : Fin 8, v[x].isSome = true) :
    ∃ p, allSome v = some p := by
  cases e : allSome v with
  | some p => exact ⟨p, rfl⟩
  | none =>
    obtain ⟨x, hx⟩ := (allSome_eq_none_iff v).1 e
    have := h x
    simp [hx] at this

/-! ### The grid -/

/-- `GridRead` answers a colour exactly for an admitted cell (R32). -/
theorem gridRead_isSome (g : Grid) (x : Fin 8) (y : BitVec 19) :
    (gridRead g x y).isSome = (decide (x.val < g.width) && decide (y.toNat < g.height)) := by
  unfold gridRead Grid.read Grid.admits
  split <;> simp_all

/-- What LDROW's loop answers: the values of the columns it read over those it was given, or the first refused column
with every earlier one admitted (R72). -/
theorem fetchColumns_cases (g : Grid) (y : BitVec 19) (cols : List (Fin 8)) (v : Vector (Option Pixel) 8) :
    ((∀ x ∈ cols, (gridRead g x y).isSome = true)
        ∧ ∃ u, fetchColumns g y cols v = .ok u
          ∧ (∀ x ∈ cols, u[x] = gridRead g x y) ∧ ∀ x : Fin 8, x ∉ cols → u[x] = v[x])
      ∨ ∃ a x b, cols = a ++ x :: b ∧ (∀ c ∈ a, (gridRead g c y).isSome = true)
          ∧ gridRead g x y = none ∧ fetchColumns g y cols v = .error x := by
  induction cols generalizing v with
  | nil => exact .inl ⟨by simp, v, rfl, by simp, by simp⟩
  | cons c rest ih =>
    cases hc : gridRead g c y with
    | none => exact .inr ⟨[], c, rest, rfl, by simp, hc, by simp [fetchColumns, hc]⟩
    | some p =>
      rcases ih (v.set c (some p)) with ⟨hall, u, hu, hin, hout⟩ | ⟨a, x, b, he, ha, hx, hf⟩
      · refine .inl ⟨by simpa [hc] using hall, u, by simpa [fetchColumns, hc] using hu, ?_, ?_⟩
        · intro x hx
          by_cases hr : x ∈ rest
          · exact hin x hr
          · have hxc : x = c := by simpa [hr] using hx
            subst hxc
            rw [hout x hr, hc]
            simp
        · intro x hx
          have hne : x ≠ c := fun e => hx (by simp [e])
          have hr : x ∉ rest := fun e => hx (by simp [e])
          rw [hout x hr]
          have : c.val ≠ x.val := fun e => hne (Fin.ext e.symm)
          simp [this]
      · refine .inr ⟨c :: a, x, b, by simp [he], ?_, hx, by simpa [fetchColumns, hc] using hf⟩
        intro d hd
        rcases List.mem_cons.1 hd with rfl | hd
        · simp [hc]
        · exact ha d hd

/-- Every column is read. -/
theorem mem_readOrder (x : Fin 8) : x ∈ readOrder := by
  revert x
  decide

/-- The row fetch that succeeds reads each lane's own cell. -/
theorem fetchRow_ok {g : Grid} {y : BitVec 19} {u : Vector (Option Pixel) 8} (h : fetchRow g y = .ok u) (x : Fin 8) :
    u[x] = gridRead g x y ∧ u[x].isSome = true := by
  rcases fetchColumns_cases g y readOrder novalueLanes with ⟨hall, v, hv, hin, -⟩ | ⟨a, c, b, -, -, -, hf⟩
  · rw [fetchRow, hv] at h
    injection h with h
    subst h
    have := hin x (mem_readOrder x)
    exact ⟨this, this ▸ hall x (mem_readOrder x)⟩
  · rw [fetchRow, hf] at h
    cases h

/-- The row fetch succeeds when every cell of the row is admitted. -/
theorem fetchRow_of_admitted {g : Grid} {y : BitVec 19} (h : ∀ x : Fin 8, (gridRead g x y).isSome = true) :
    ∃ u, fetchRow g y = .ok u := by
  rcases fetchColumns_cases g y readOrder novalueLanes with ⟨-, v, hv, -, -⟩ | ⟨a, c, b, -, -, hc, -⟩
  · exact ⟨v, hv⟩
  · have := h c
    simp [hc] at this

/-- The row fetch that fails names a refused column, every column read before it (those to its right) admitted. -/
theorem fetchRow_error {g : Grid} {y : BitVec 19} {x : Fin 8} (h : fetchRow g y = .error x) :
    gridRead g x y = none ∧ ∀ c : Fin 8, x < c → (gridRead g c y).isSome = true := by
  rcases fetchColumns_cases g y readOrder novalueLanes with ⟨-, v, hv, -, -⟩ | ⟨a, c, b, he, ha, hc, hf⟩
  · rw [fetchRow, hv] at h
    cases h
  · rw [fetchRow, hf] at h
    injection h with h
    subst h
    refine ⟨hc, fun d hd => ha d ?_⟩
    have hs : List.Pairwise (fun p q : Fin 8 => q < p) readOrder := by decide
    rw [he, List.pairwise_append] at hs
    have hm : d ∈ a ++ c :: b := he ▸ mem_readOrder d
    rcases List.mem_append.1 hm with hm | hm
    · exact hm
    · rcases List.mem_cons.1 hm with rfl | hm
      · exact absurd hd (lt_irrefl _)
      · have := (List.pairwise_cons.1 hs.2.1).1 d hm
        exact absurd (lt_trans hd this) (lt_irrefl _)

end Sys2Proof.Machine
end

