-- ==== Sys2Proof/Laws/Exec.lean ====
section
/-! SUPPORT. What each meaning, the dispatch and a step can answer, said once, so that an invariant is a short case
analysis. -/

namespace Sys2Proof.Machine

/-- Everything END can answer. -/
theorem execEndRun_cases (s : State) :
    (s.stopped = true ∧ execEndRun s = .next s)
      ∨ (s.stopped = false ∧ s.rowcnt = 0#3 ∧ execEndRun s = .next (setDone s))
      ∨ (s.stopped = false ∧ s.rowcnt ≠ 0#3
          ∧ execEndRun s = .next (setDone (emptyBuffer
              { s with status := { s.status with ptd := true, ptdrows := s.rowcnt } }))) := by
  unfold execEndRun dropPartialTile
  cases s.stopped <;> by_cases h : s.rowcnt = 0#3 <;> simp [h]

/-- Everything LDPX can answer. -/
theorem execLdPx_cases (lane : Fin 8) (rgb : Pixel) (s : State) :
    (s.stopped = true ∧ execLdPx lane rgb s = .next s)
      ∨ (s.stopped = false ∧ execLdPx lane rgb s = .next (writeLane lane rgb s)) := by
  unfold execLdPx
  cases s.stopped <;> simp

/-- Everything LDROW can answer. -/
theorem execLdRow_cases (s : State) :
    (s.stopped = true ∧ execLdRow s = .next s)
      ∨ (s.stopped = false ∧ ∃ v, fetchRow s.grid (scanPos s) = .ok v ∧ execLdRow s = .next (writeLanes v s))
      ∨ (s.stopped = false ∧ ∃ x, fetchRow s.grid (scanPos s) = .error x
          ∧ execLdRow s = .next (raise .gridRange (gridRangeInfo (scanPos s) x) s)) := by
  unfold execLdRow loadRow
  cases s.stopped <;> cases fetchRow s.grid (scanPos s) <;> simp

/-- Everything the append and the finalize can answer. -/
theorem acceptByte_cases (b : Byte) (s : State) :
    (s.rowcnt ≠ 7#3 ∧ acceptByte b s = .next { appendByte b s with rowcnt := s.rowcnt + 1#3 })
      ∨ (s.rowcnt = 7#3 ∧ s.limit ≤ s.tileidx ∧ acceptByte b s = .next (outOfLabels (appendByte b s)))
      ∨ (s.rowcnt = 7#3 ∧ s.tileidx < s.limit ∧ ∃ bytes, allSome (appendByte b s).tbuf = some bytes
          ∧ acceptByte b s = .next (emitTile bytes (appendByte b s)))
      ∨ (s.rowcnt = 7#3 ∧ s.tileidx < s.limit ∧ allSome (appendByte b s).tbuf = none
          ∧ acceptByte b s = .refused .novalueTileByte) := by
  unfold acceptByte finalize
  by_cases h : s.rowcnt = 7#3
  · rw [if_neg (not_not_intro h)]
    by_cases hl : s.limit ≤ s.tileidx
    · exact .inr (.inl ⟨h, hl, if_pos hl⟩)
    · have hl' : s.tileidx < s.limit := BitVec.not_le.1 hl
      rw [appendByte_limit, appendByte_tileidx, if_neg hl]
      cases hb : allSome (appendByte b s).tbuf with
      | some bytes => exact .inr (.inr (.inl ⟨h, hl', bytes, rfl, rfl⟩))
      | none => exact .inr (.inr (.inr ⟨h, hl', rfl, rfl⟩))
  · exact .inl ⟨h, if_pos h⟩

/-- Everything PACK can answer. -/
theorem execPack_cases (s : State) :
    (s.stopped = true ∧ execPack s = .next s)
      ∨ (s.stopped = false ∧ s.pxv ≠ 0xFF#8
          ∧ execPack s = .next (raise .laneUndefined (laneUndefinedInfo s.pxv) s))
      ∨ (s.stopped = false ∧ s.pxv = 0xFF#8 ∧ ∃ p, allSome s.px = some p
          ∧ execPack s = acceptByte (pack8 s.ink p) (invalidateLanes s))
      ∨ (s.stopped = false ∧ s.pxv = 0xFF#8 ∧ allSome s.px = none ∧ execPack s = .fault .novalueLane) := by
  unfold execPack packRow
  cases s.stopped
  · by_cases h : s.pxv = 0xFF#8
    · cases hp : allSome s.px <;> simp [h]
    · simp [h]
  · simp

/-- Every next state of PACK, one by one. -/
theorem execPack_next {s t : State} (h : execPack s = .next t) :
    (s.stopped = true ∧ t = s)
      ∨ (s.stopped = false ∧ s.pxv ≠ 0xFF#8 ∧ t = raise .laneUndefined (laneUndefinedInfo s.pxv) s)
      ∨ (s.stopped = false ∧ s.pxv = 0xFF#8 ∧ ∃ p, allSome s.px = some p ∧
          ((s.rowcnt ≠ 7#3
              ∧ t = { appendByte (pack8 s.ink p) (invalidateLanes s) with rowcnt := s.rowcnt + 1#3 })
            ∨ (s.rowcnt = 7#3 ∧ s.limit ≤ s.tileidx
              ∧ t = outOfLabels (appendByte (pack8 s.ink p) (invalidateLanes s)))
            ∨ (s.rowcnt = 7#3 ∧ s.tileidx < s.limit ∧ ∃ bytes,
                allSome (appendByte (pack8 s.ink p) (invalidateLanes s)).tbuf = some bytes
                ∧ t = emitTile bytes (appendByte (pack8 s.ink p) (invalidateLanes s))))) := by
  rcases execPack_cases s with ⟨hs, he⟩ | ⟨hs, hv, he⟩ | ⟨hs, hv, p, hp, he⟩ | ⟨hs, hv, hp, he⟩
  · rw [he] at h
    injection h with h
    exact .inl ⟨hs, h.symm⟩
  · rw [he] at h
    injection h with h
    exact .inr (.inl ⟨hs, hv, h.symm⟩)
  · refine .inr (.inr ⟨hs, hv, p, hp, ?_⟩)
    rw [he] at h
    rcases acceptByte_cases (pack8 s.ink p) (invalidateLanes s) with ⟨hr, e⟩ | ⟨hr, hl, e⟩ | ⟨hr, hl, b, hb, e⟩
      | ⟨hr, hl, hb, e⟩
    · rw [e] at h
      injection h with h
      exact .inl ⟨hr, h.symm⟩
    · rw [e] at h
      injection h with h
      exact .inr (.inl ⟨hr, hl, h.symm⟩)
    · rw [e] at h
      injection h with h
      exact .inr (.inr ⟨hr, hl, b, hb, h.symm⟩)
    · rw [e] at h
      cases h
  · rw [he] at h
    cases h

/-- Every next state of the dispatch, by command. -/
theorem exec_next {i : Instr} {s t : State} (h : exec i s = .next t) :
    (∃ rgb, i = .setInk rgb ∧ t = { s with ink := rgb })
      ∨ (∃ n, i = .setLim n ∧ t = { s with limit := n })
      ∨ (i = .start ∧ t = beginRun s)
      ∨ (i = .endRun ∧ execEndRun s = .next t)
      ∨ (∃ lane rgb, i = .ldPx lane rgb ∧ execLdPx lane rgb s = .next t)
      ∨ (i = .ldRow ∧ execLdRow s = .next t)
      ∨ (i = .pack ∧ execPack s = .next t) := by
  cases i with
  | setInk rgb =>
    simp only [exec, execSetInk, Host.Outcome.next.injEq] at h
    exact .inl ⟨rgb, rfl, h.symm⟩
  | setLim n =>
    simp only [exec, execSetLim, Host.Outcome.next.injEq] at h
    exact .inr (.inl ⟨n, rfl, h.symm⟩)
  | start =>
    simp only [exec, execStart, Host.Outcome.next.injEq] at h
    exact .inr (.inr (.inl ⟨rfl, h.symm⟩))
  | endRun => exact .inr (.inr (.inr (.inl ⟨rfl, h⟩)))
  | ldPx lane rgb => exact .inr (.inr (.inr (.inr (.inl ⟨lane, rgb, rfl, h⟩))))
  | ldRow => exact .inr (.inr (.inr (.inr (.inr (.inl ⟨rfl, h⟩)))))
  | pack => exact .inr (.inr (.inr (.inr (.inr (.inr ⟨rfl, h⟩)))))

/-- Everything a word can answer. -/
theorem acceptWord_cases (w : Word) (s : State) :
    (∃ i, decode w = .ok i ∧ acceptWord w s = exec i s)
      ∨ (∃ e, decode w = .error e ∧ acceptWord w s = .next (illegalCommand w s)) := by
  unfold acceptWord
  cases decode w <;> simp

/-- What an illegal word leaves: nothing in STOPPED mode, the fault record in RUN mode. -/
theorem illegalCommand_cases (w : Word) (s : State) :
    (s.stopped = true ∧ illegalCommand w s = s)
      ∨ (s.stopped = false ∧ illegalCommand w s = raise .illegalCommand w s) := by
  unfold illegalCommand
  cases s.stopped <;> simp

/-- Every next state a word can leave, one by one: dropped, or one command's effect, or a fault's record. -/
theorem acceptWord_next {w : Word} {s t : State} (h : acceptWord w s = .next t) :
    (s.stopped = true ∧ t = s ∧ decode w ≠ .ok .start)
      ∨ (∃ rgb, decode w = .ok (.setInk rgb) ∧ t = { s with ink := rgb })
      ∨ (∃ n, decode w = .ok (.setLim n) ∧ t = { s with limit := n })
      ∨ (decode w = .ok .start ∧ t = beginRun s)
      ∨ (s.stopped = false ∧
          ((decode w = .ok .endRun ∧ s.rowcnt = 0#3 ∧ t = setDone s)
            ∨ (decode w = .ok .endRun ∧ s.rowcnt ≠ 0#3 ∧ t = setDone (emptyBuffer
                { s with status := { s.status with ptd := true, ptdrows := s.rowcnt } }))
            ∨ (∃ lane rgb, decode w = .ok (.ldPx lane rgb) ∧ t = writeLane lane rgb s)
            ∨ (∃ v, decode w = .ok .ldRow ∧ fetchRow s.grid (scanPos s) = .ok v ∧ t = writeLanes v s)
            ∨ (∃ x, decode w = .ok .ldRow ∧ fetchRow s.grid (scanPos s) = .error x
                ∧ t = raise .gridRange (gridRangeInfo (scanPos s) x) s)
            ∨ (decode w = .ok .pack ∧ s.pxv ≠ 0xFF#8
                ∧ t = raise .laneUndefined (laneUndefinedInfo s.pxv) s)
            ∨ (decode w = .ok .pack ∧ s.pxv = 0xFF#8 ∧ ∃ p, allSome s.px = some p ∧
                ((s.rowcnt ≠ 7#3
                    ∧ t = { appendByte (pack8 s.ink p) (invalidateLanes s) with rowcnt := s.rowcnt + 1#3 })
                  ∨ (s.rowcnt = 7#3 ∧ s.limit ≤ s.tileidx
                    ∧ t = outOfLabels (appendByte (pack8 s.ink p) (invalidateLanes s)))
                  ∨ (s.rowcnt = 7#3 ∧ s.tileidx < s.limit ∧ ∃ bytes,
                      allSome (appendByte (pack8 s.ink p) (invalidateLanes s)).tbuf = some bytes
                      ∧ t = emitTile bytes (appendByte (pack8 s.ink p) (invalidateLanes s)))))
            ∨ ((∀ i, decode w ≠ .ok i) ∧ t = raise .illegalCommand w s))) := by
  rcases acceptWord_cases w s with ⟨i, hd, e⟩ | ⟨er, hd, e⟩
  · rw [e] at h
    rcases exec_next h with ⟨rgb, rfl, rfl⟩ | ⟨n, rfl, rfl⟩ | ⟨rfl, rfl⟩ | ⟨rfl, hx⟩ | ⟨lane, rgb, rfl, hx⟩
      | ⟨rfl, hx⟩ | ⟨rfl, hx⟩
    · exact .inr (.inl ⟨rgb, hd, rfl⟩)
    · exact .inr (.inr (.inl ⟨n, hd, rfl⟩))
    · exact .inr (.inr (.inr (.inl ⟨hd, rfl⟩)))
    · rcases execEndRun_cases s with ⟨hs, e⟩ | ⟨hs, hr, e⟩ | ⟨hs, hr, e⟩ <;> rw [e] at hx <;>
        injection hx with hx <;> subst hx <;> simp_all
    · rcases execLdPx_cases lane rgb s with ⟨hs, e⟩ | ⟨hs, e⟩ <;> rw [e] at hx <;>
        injection hx with hx <;> subst hx <;> simp [hs, hd]
    · rcases execLdRow_cases s with ⟨hs, e⟩ | ⟨hs, v, hv, e⟩ | ⟨hs, x, hv, e⟩ <;> rw [e] at hx <;>
        injection hx with hx <;> subst hx <;> simp_all
    · rcases execPack_next hx with ⟨hs, rfl⟩ | ⟨hs, hv, rfl⟩ | ⟨hs, hv, p, hp, hc⟩
      · simp [hs, hd]
      · simp [hs, hv, hd]
      · exact .inr (.inr (.inr (.inr ⟨hs, .inr (.inr (.inr (.inr (.inr (.inr (.inl ⟨hd, hv, p, hp, hc⟩))))))⟩)))
  · rw [e] at h
    injection h with h
    subst h
    rcases illegalCommand_cases w s with ⟨hs, e⟩ | ⟨hs, e⟩ <;> rw [e] <;> simp [hs, hd]

/-- Everything a step can answer, by what is presented. -/
theorem step_cases (s : State) :
    (s.inputs = [] ∧ step s = .next s)
      ∨ (∃ w rest, s.inputs = .word w :: rest ∧ step s = acceptWord w { s with inputs := rest })
      ∨ (∃ a b rest, s.inputs = .twoWords a b :: rest ∧ step s = .refused .twoWordsAtOnce)
      ∨ (∃ d rest, s.inputs = .reset d :: rest ∧ step s = .next (resetBlock { s with inputs := rest }))
      ∨ (∃ g rest, s.inputs = .attach g :: rest ∧ step s = .next { s with inputs := rest, grid := g })
      ∨ (∃ x y rgb rest, s.inputs = .setCell x y rgb :: rest
          ∧ step s = changeCell x y rgb { s with inputs := rest }) := by
  unfold step takeInput
  cases h : s.inputs with
  | nil => exact .inl ⟨rfl, rfl⟩
  | cons i rest =>
    cases i <;> simp [accept]

/-- Everything the platform's change of a cell can answer. -/
theorem changeCell_cases (x y : Nat) (rgb : Pixel) (s : State) :
    (∃ g, s.grid.put x y rgb = some g ∧ changeCell x y rgb s = .next { s with grid := g })
      ∨ (s.grid.put x y rgb = none ∧ changeCell x y rgb s = .fault .absentCell) := by
  unfold changeCell
  cases s.grid.put x y rgb <;> simp

end Sys2Proof.Machine
end

