-- ==== Sys2Proof/Laws/Grid.lean ====
section
/-! SUPPORT. The grid's canonical form: every operation over it keeps it, and a read after a change sees the change and
nothing else. -/

namespace Sys2Proof.Machine

/-- (x, y) stands before (x', y') in the order of the list. -/
theorem cellBefore_iff (x y : Nat) (c : GridCell) : cellBefore x y c = true ↔ y < c.y ∨ (y = c.y ∧ x < c.x) := by
  simp [cellBefore]

/-- A rising list, as every cell before every later one. -/
theorem cellsRising_iff (cells : List GridCell) :
    cellsRising cells = true ↔ cells.Pairwise (fun a b => cellBefore a.x a.y b = true) := by
  induction cells with
  | nil => simp [cellsRising]
  | cons a rest ih =>
    cases rest with
    | nil => simp [cellsRising]
    | cons b rest =>
      simp only [cellsRising, Bool.and_eq_true, ih, List.pairwise_cons]
      constructor
      · rintro ⟨hab, hb, hr⟩
        refine ⟨?_, hb, hr⟩
        intro c hc
        rcases List.mem_cons.1 hc with rfl | hc
        · exact hab
        · have := hb c hc
          rw [cellBefore_iff] at *
          omega
      · rintro ⟨ha, hb, hr⟩
        exact ⟨ha b (by simp), hb, hr⟩

/-- The canonical form, part by part. -/
theorem memory_wf_iff (g : Grid) :
    Memory.wf g = true ↔ g.cells.Pairwise (fun a b => cellBefore a.x a.y b = true)
      ∧ ∀ c ∈ g.cells, c.x < g.width ∧ c.y < g.height ∧ c.rgb ≠ Config.unlistedCell := by
  simp [Memory.wf, cellsRising_iff, and_assoc]

/-- A cell of the changed list is the changed one or one that was there. -/
theorem mem_putCell {x y : Nat} {rgb : Pixel} {cells : List GridCell} {d : GridCell} (h : d ∈ putCell x y rgb cells) :
    (d = { x := x, y := y, rgb := rgb } ∧ rgb ≠ Config.unlistedCell) ∨ d ∈ cells := by
  induction cells with
  | nil =>
    simp only [putCell] at h
    split at h
    · simp at h
    · exact .inl ⟨by simpa using h, by assumption⟩
  | cons c rest ih =>
    simp only [putCell] at h
    split at h
    · split at h
      · exact .inr h
      · rcases List.mem_cons.1 h with h | h
        · exact .inl ⟨h, by assumption⟩
        · exact .inr h
    · split at h
      · split at h
        · exact .inr (List.mem_cons_of_mem _ h)
        · rcases List.mem_cons.1 h with h | h
          · exact .inl ⟨h, by assumption⟩
          · exact .inr (List.mem_cons_of_mem _ h)
      · rcases List.mem_cons.1 h with h | h
        · exact .inr (by simp [h])
        · rcases ih h with h | h
          · exact .inl h
          · exact .inr (List.mem_cons_of_mem _ h)

/-- The changed list still rises. -/
theorem putCell_rising {x y : Nat} {rgb : Pixel} {cells : List GridCell}
    (h : cells.Pairwise (fun a b => cellBefore a.x a.y b = true)) :
    (putCell x y rgb cells).Pairwise (fun a b => cellBefore a.x a.y b = true) := by
  induction cells with
  | nil =>
    simp only [putCell]
    split <;> simp
  | cons c rest ih =>
    obtain ⟨hc, hr⟩ := List.pairwise_cons.1 h
    simp only [putCell]
    split
    · rename_i hb
      split
      · exact h
      · refine List.pairwise_cons.2 ⟨?_, h⟩
        intro d hd
        rcases List.mem_cons.1 hd with rfl | hd
        · exact hb
        · have := hc d hd
          rw [cellBefore_iff] at *
          dsimp only
          omega
    · rename_i hb
      split
      · rename_i he
        split
        · exact hr
        · refine List.pairwise_cons.2 ⟨?_, hr⟩
          intro d hd
          have := hc d hd
          rw [cellBefore_iff] at *
          dsimp only
          omega
      · rename_i hne
        refine List.pairwise_cons.2 ⟨?_, ih hr⟩
        intro d hd
        rcases mem_putCell hd with ⟨rfl, -⟩ | hd
        · rw [cellBefore_iff] at *
          dsimp only at *
          omega
        · exact hc d hd

/-- The platform's change of a cell keeps the canonical form. -/
theorem Grid.put_wf {g g' : Grid} {x y : Nat} {rgb : Pixel} (hg : Memory.wf g = true) (h : g.put x y rgb = some g') :
    Memory.wf g' = true := by
  unfold Grid.put at h
  split at h
  · rename_i ha
    injection h with h
    subst h
    rw [memory_wf_iff] at *
    refine ⟨putCell_rising hg.1, fun d hd => ?_⟩
    simp only [Grid.admits, Bool.and_eq_true, decide_eq_true_eq] at ha
    rcases mem_putCell hd with ⟨rfl, hne⟩ | hd
    · exact ⟨ha.1, ha.2, hne⟩
    · exact hg.2 d hd
  · cases h

/-- A cell that stands before every listed one is not listed. -/
theorem cellColour_of_before {x y : Nat} {cells : List GridCell} (h : ∀ d ∈ cells, cellBefore x y d = true) :
    cellColour x y cells = Config.unlistedCell := by
  induction cells with
  | nil => rfl
  | cons c rest ih =>
    have hc := h c (by simp)
    rw [cellBefore_iff] at hc
    have hne : ¬(c.x = x ∧ c.y = y) := by omega
    simp only [cellColour, hne, if_false]
    exact ih (fun d hd => h d (by simp [hd]))

/-- A read after a change of a cell in a rising list. -/
theorem cellColour_putCell {x y : Nat} {rgb : Pixel} {cells : List GridCell} (u v : Nat)
    (h : cells.Pairwise (fun a b => cellBefore a.x a.y b = true)) :
    cellColour u v (putCell x y rgb cells) = if u = x ∧ v = y then rgb else cellColour u v cells := by
  induction cells with
  | nil =>
    simp only [putCell]
    by_cases he : u = x ∧ v = y
    · obtain ⟨rfl, rfl⟩ := he
      split <;> simp_all [cellColour]
    · have he' : ¬(x = u ∧ y = v) := by omega
      split <;> simp [cellColour, he']
  | cons c rest ih =>
    obtain ⟨hc, hr⟩ := List.pairwise_cons.1 h
    simp only [putCell]
    by_cases hb : cellBefore x y c = true
    · have hall : ∀ d ∈ c :: rest, cellBefore x y d = true := by
        intro d hd
        rcases List.mem_cons.1 hd with rfl | hd
        · exact hb
        · have := hc d hd
          rw [cellBefore_iff] at *
          omega
      have hnone := cellColour_of_before hall
      rw [if_pos hb]
      by_cases he : u = x ∧ v = y
      · obtain ⟨rfl, rfl⟩ := he
        split
        · rename_i hu
          simp [hnone, hu]
        · simp [cellColour]
      · have he' : ¬(x = u ∧ y = v) := by omega
        split
        · simp
        · simp only [cellColour, he', if_false]
    · rw [if_neg hb]
      by_cases hcx : c.x = x ∧ c.y = y
      · rw [if_pos hcx]
        by_cases he : u = x ∧ v = y
        · obtain ⟨rfl, rfl⟩ := he
          split
          · rename_i hu
            have hall : ∀ d ∈ rest, cellBefore u v d = true := by
              intro d hd
              have := hc d hd
              rwa [hcx.1, hcx.2] at this
            simp [cellColour_of_before hall, hu]
          · simp [cellColour]
        · have he' : ¬(x = u ∧ y = v) := by omega
          have hcu : ¬(c.x = u ∧ c.y = v) := by omega
          split <;> simp only [cellColour, he', hcu, if_false]
      · rw [if_neg hcx]
        simp only [cellColour, ih hr]
        by_cases he : u = x ∧ v = y
        · obtain ⟨rfl, rfl⟩ := he
          simp [hcx]
        · simp [he]

/-- The read law: after the platform changed cell (x, y), that cell reads as the new colour and every other place
reads as before. -/
theorem Grid.read_put {g g' : Grid} {x y : Nat} {rgb : Pixel} (hg : Memory.wf g = true) (h : g.put x y rgb = some g')
    (u v : Nat) : g'.read u v = if u = x ∧ v = y then some rgb else g.read u v := by
  unfold Grid.put at h
  split at h
  · rename_i ha
    injection h with h
    subst h
    have hc := cellColour_putCell (x := x) (y := y) (rgb := rgb) u v ((memory_wf_iff g).1 hg).1
    simp only [Grid.read, Grid.admits, hc]
    by_cases he : u = x ∧ v = y
    · obtain ⟨rfl, rfl⟩ := he
      simp only [Grid.admits] at ha
      simp [ha]
    · simp [he]
  · cases h

end Sys2Proof.Machine
end

