-- ==== Sys2Proof/Laws/Operands.lean ====
section
/-! SUPPORT. The register operands and fault information as numbers. -/

namespace Sys2Proof.Machine

/-- ROWCNT's tile-buffer index is its value (R14). -/
@[simp] theorem rowIndex_val (r : BitVec 3) : (rowIndex r).val = r.toNat := rfl

/-- GridRange's information as a number: 8 * Y + x, so Y stands above the three bits of x (R21). -/
theorem gridRangeInfo_toNat (y : BitVec 19) (x : Fin 8) : (gridRangeInfo y x).toNat = 8 * y.toNat + x.val := by
  have hx := x.isLt
  have hy := y.isLt
  have h : (y ++ BitVec.ofNat 3 x.val : BitVec (19 + 3)).toNat = 8 * y.toNat + x.val := by
    rw [BitVec.toNat_append, ← Nat.shiftLeft_add_eq_or_of_lt (BitVec.isLt _), Nat.shiftLeft_eq]
    simp
    omega
  have hs : (gridRangeInfo y x).toNat = (y ++ BitVec.ofNat 3 x.val : BitVec (19 + 3)).toNat % 2 ^ 32 :=
    BitVec.toNat_setWidth 32 _
  rw [hs, h]
  omega

end Sys2Proof.Machine
end

