-- ==== Sys2Proof/Laws/PerInstr.lean ====
section
/-! SUPPORT. Facts about every command as syntax, one lemma per constructor: its word is in its own row of the opcode
map (30_encoding.md R56), and its operands are in the ranges of its format. -/

namespace Sys2Proof.Laws

/-- The family TableRow: the command's word matches the mask and the match of its row, and the command is
well-formed. -/
def TableRow.Statement (i : Instr) : Prop :=
  encode i &&& maskOf i = patternOf i ∧ i.wellFormed = true

theorem TableRow.setInk (rgb : Pixel) : TableRow.Statement (.setInk rgb) := by
  refine ⟨?_, by simpa [Instr.wellFormed, colourOk] using rgb.isLt⟩
  simp only [encode, maskOf, patternOf]
  ext j hj
  simp only [BitVec.getElem_and, BitVec.getElem_append]
  split
  · interval_cases j <;> simp
  · interval_cases j <;> simp_all

theorem TableRow.setLim (n : BitVec 16) : TableRow.Statement (.setLim n) := by
  refine ⟨?_, by simp only [Instr.wellFormed, numberOk, decide_eq_true_eq]; have := n.isLt; omega⟩
  simp only [encode, maskOf, patternOf]
  ext j hj
  simp only [BitVec.getElem_and, BitVec.getElem_append]
  split
  · interval_cases j <;> simp_all
  · interval_cases j <;> simp_all

theorem TableRow.start : TableRow.Statement .start := ⟨by decide, rfl⟩

theorem TableRow.endRun : TableRow.Statement .endRun := ⟨by decide, rfl⟩

theorem TableRow.ldPx (lane : Fin 8) (rgb : Pixel) : TableRow.Statement (.ldPx lane rgb) := by
  refine ⟨?_, ?_⟩
  · simp only [encode, maskOf, patternOf]
    ext j hj
    simp only [BitVec.getElem_and, BitVec.getElem_append]
    split
    · interval_cases j <;> simp_all
    · interval_cases j <;> simp_all
  · have := rgb.isLt
    have := lane.isLt
    simp only [Instr.wellFormed, colourOk, laneOk, Bool.and_eq_true, decide_eq_true_eq]
    omega

theorem TableRow.ldRow : TableRow.Statement .ldRow := ⟨by decide, rfl⟩

theorem TableRow.pack : TableRow.Statement .pack := ⟨by decide, rfl⟩

end Sys2Proof.Laws
end

