-- ==== Sys2Proof/Laws/Word.lean ====
section
/-! SUPPORT. Words as numbers: concatenation, and a mask of the high bits. -/

namespace Sys2Proof

/-- `a ∥ b` as a number (R8). -/
theorem append_toNat {m n : Nat} (a : BitVec m) (b : BitVec n) : (a ++ b).toNat = a.toNat * 2 ^ n + b.toNat := by
  rw [BitVec.toNat_append, ← Nat.shiftLeft_add_eq_or_of_lt (BitVec.isLt _), Nat.shiftLeft_eq]

/-- Keeping the bits from j up is dropping the low j bits of the number. -/
theorem and_highMask_toNat (w : Word) (j : Nat) :
    (w &&& (BitVec.allOnes 32 <<< j)).toNat = w.toNat / 2 ^ j * 2 ^ j := by
  have h : w &&& (BitVec.allOnes 32 <<< j) = (w >>> j) <<< j := by
    ext i hi
    simp only [BitVec.getElem_and, BitVec.getElem_shiftLeft, BitVec.getElem_allOnes,
      BitVec.getElem_ushiftRight]
    by_cases h : i < j
    · simp [h]
    · have e : j + (i - j) = i := by omega
      simp [h, e, BitVec.getLsbD_eq_getElem hi]
  have hw := w.isLt
  have hd := Nat.div_mul_le_self w.toNat (2 ^ j)
  rw [h, BitVec.toNat_shiftLeft, BitVec.toNat_ushiftRight, Nat.shiftLeft_eq, Nat.shiftRight_eq_div_pow,
    Nat.mod_eq_of_lt (by omega)]

end Sys2Proof
end

