-- ==== Sys2Proof/Tests/Slice0.lean ====
section
/-! SUPPORT. Tests: expected results from spec/95_test_vectors.md or by hand from the rules; and for every statement
with hypotheses a witness that meets them together. -/

namespace Sys2Proof.Tests

open Sys2Proof.Machine

/-! ### Helpers -/

/-- Black and white. -/
def black : Pixel := 0x000000#24
def white : Pixel := 0xFFFFFF#24

/-- The next state, if the outcome is one. -/
def nextOf (o : Host.Outcome State Fault Refusal) : Option State :=
  match o with
  | .next t => some t
  | .fault _ => none
  | .refused _ => none

/-- A grid 8 wide and 2 high, row 0 black but for a white cell at column 1, row 1 black. -/
def smallGrid : Grid := { width := 8, height := 2, cells := [{ x := 1, y := 0, rgb := white }] }

/-- A RUN state with that grid. -/
def running : State := { State.reset with grid := smallGrid }

/-- Eight lanes that hold colours: ink (black) at columns 0 and 7 only. -/
def edgeLanes : Vector Pixel 8 := #v[black, white, white, white, white, white, white, black]

/-- A RUN state with all lanes loaded. -/
def loaded : State := { running with px := Vector.ofFn (fun x : Fin 8 => some edgeLanes[x]), pxv := 0xFF#8 }

/-- A RUN state one PACK before a tile boundary: seven bytes 1 to 7 buffered (T-K3). -/
def atBoundary : State :=
  { loaded with rowcnt := 7#3, limit := 2#16,
                tbuf := #v[some 1#8, some 2#8, some 3#8, some 4#8, some 5#8, some 6#8, some 7#8, none] }

/-- A STOPPED state with an IllegalCommand recorded (T-M1). -/
def faulted : State :=
  { running with status := { Status.clear with fault := true, fcode := .illegalCommand }, finfo := 0x21000001#32 }

/-- A STOPPED state after END. -/
def ended : State := { running with status := { Status.clear with done := true } }

/-! ### Well-formedness: an ill-formed number for each check -/

theorem test_lane_8_refused : laneOk 8 = false := by decide
theorem test_lane_7_accepted : laneOk 7 = true := by decide
theorem test_number_65536_refused : numberOk 65536 = false := by decide
theorem test_number_65535_accepted : numberOk 65535 = true := by decide
theorem test_colour_25_bits_refused : colourOk 16777216 = false := by decide
theorem test_colour_24_bits_accepted : colourOk 16777215 = true := by decide

/-! ### Decode (95_test_vectors.md 2.2) -/

/-- A word written out bit by bit from R52: op 00000001, r 00010010, g 00110100, b 01010110. -/
theorem test_decode_setInk_bits :
    decode 0b00000001000100100011010001010110#32 = .ok (.setInk 0x123456#24) := by decide
/-- R53: op 00000010, zero 00000000, n 0000000000000010. -/
theorem test_decode_setLim_bits : decode 0b00000010000000000000000000000010#32 = .ok (.setLim 2#16) := by decide
/-- R51: op 00000011, zero. -/
theorem test_decode_start_bits : decode 0b00000011000000000000000000000000#32 = .ok .start := by decide
/-- R51: op 00000100, zero. -/
theorem test_decode_end_bits : decode 0b00000100000000000000000000000000#32 = .ok .endRun := by decide
/-- R54: op5 00010, lane 011, r 11111111, g 00000000, b 00000000. -/
theorem test_decode_ldPx_bits :
    decode 0b00010011111111110000000000000000#32 = .ok (.ldPx 3 0xFF0000#24) := by decide
/-- R51: op 00100000, zero. -/
theorem test_decode_ldRow_bits : decode 0b00100000000000000000000000000000#32 = .ok .ldRow := by decide
/-- R51: op 00100001, zero. -/
theorem test_decode_pack_bits : decode 0b00100001000000000000000000000000#32 = .ok .pack := by decide
/-- T-D2, T-D4, T-D12: operands at their largest. -/
theorem test_decode_largest :
    decode 0x01FFFFFF#32 = .ok (.setInk 0xFFFFFF#24) ∧ decode 0x0200FFFF#32 = .ok (.setLim 65535#16)
      ∧ decode 0x17FFFFFF#32 = .ok (.ldPx 7 0xFFFFFF#24) := by decide
/-- T-D5, T-D7, T-D9, T-D16, T-D18: operand bits that must be zero. -/
theorem test_decode_stray_bits :
    decode 0x02010000#32 = .error .highByteNotZero ∧ decode 0x03000001#32 = .error .operandBitsNotZero
      ∧ decode 0x04800000#32 = .error .operandBitsNotZero ∧ decode 0x20000100#32 = .error .operandBitsNotZero
      ∧ decode 0x21000001#32 = .error .operandBitsNotZero := by decide
/-- T-D13, T-D14, T-D19 to T-D22 and the ends of R58's opcode ranges. -/
theorem test_decode_unassigned :
    [0x00000000#32, 0x05000000#32, 0x0F123456#32, 0x18000000#32, 0x1F000000#32, 0x22000000#32, 0xFF000000#32,
      0xFFFFFFFF#32].all (fun w => decide (decode w = .error .unassignedOpcode)) = true := by decide
/-- The table's own rows. -/
theorem test_table_words :
    decodeTableWord 32 0x21000000 = some .pack ∧ decodeTableWord 32 0x01000000 = some (.setInk 0#24)
      ∧ decodeTableWord 32 0x21000001 = none := by decide
/-- The word placed by withFetchWord is what the next step runs. -/
theorem test_withFetchWord :
    (nextOf (step (State.reset.withFetchWord 32 0x02000002))).map State.limit = some 2#16 := by decide

/-! ### One step of each command -/

/-- T-C1. -/
theorem test_setInk : (nextOf (exec (.setInk 0xFF0000#24) State.reset)).map State.ink = some 0xFF0000#24 := by decide
/-- T-C11: SETINK in STOPPED mode. -/
theorem test_setInk_stopped :
    (nextOf (exec (.setInk 0x123456#24) faulted)).map (fun t => (t.ink, t.finfo)) = some (0x123456#24, 0x21000001#32) := by
  decide
/-- T-C3. -/
theorem test_setLim : (nextOf (exec (.setLim 65535#16) State.reset)).map State.limit = some 65535#16 := by decide
/-- T-C4, T-M4. -/
theorem test_start_after_fault :
    (nextOf (exec .start faulted)).map (fun t => (t.status.word, t.finfo, t.stopped)) = some (0#32, 0#32, false) := by
  decide
/-- T-C6. -/
theorem test_start_after_reset : nextOf (exec .start State.reset) = some State.reset := by decide
/-- T-C7: three rows buffered. -/
theorem test_end_three_rows :
    (nextOf (exec .endRun { running with
      rowcnt := 3#3, tbuf := #v[some 255#8, some 255#8, some 255#8, none, none, none, none, none] })).map
      (fun t => (t.status.word, t.rowcnt, t.tbuf)) = some (0x00000170#32, 0#3, novalueBytes) := by decide
/-- T-C9. -/
theorem test_end_empty : (nextOf (exec .endRun State.reset)).map (fun t => t.status.word) = some 0x00000100#32 := by
  decide
/-- T-L1. -/
theorem test_ldPx :
    (nextOf (exec (.ldPx 3 0xFF0000#24) State.reset)).map (fun t => (t.px[3], t.px[2], t.pxv))
      = some (some 0xFF0000#24, none, 0x08#8) := by decide
/-- T-L10: dropped in STOPPED mode. -/
theorem test_ldPx_stopped : nextOf (exec (.ldPx 0 black) ended) = some ended := by decide
/-- T-L4's shape, with one white cell: lane 1 takes column 1. -/
theorem test_ldRow :
    (nextOf (exec .ldRow running)).map (fun t => (t.px[0], t.px[1], t.px[7], t.pxv))
      = some (some black, some white, some black, 0xFF#8) := by decide
/-- T-L7: Y = 16 with H = 2, FINFO = 0x87, no lane written. -/
theorem test_ldRow_below_grid :
    (nextOf (exec .ldRow { running with tileidx := 2#16 })).map (fun t => (t.status.word, t.finfo, t.pxv))
      = some (0x00000005#32, 0x00000087#32, 0x00#8) := by decide
/-- T-K1: lanes X......X give 129. -/
theorem test_pack_append :
    (nextOf (exec .pack loaded)).map (fun t => (t.rowcnt, t.tbuf[0], t.pxv)) = some (1#3, some 129#8, 0x00#8) := by
  decide
/-- T-K3's shape: the record emitted at the boundary. -/
theorem test_pack_emit :
    (nextOf (exec .pack atBoundary)).map (fun t => (t.out, t.tileidx, t.rowcnt))
      = some ([{ idx := 0#16, b := #v[1#8, 2#8, 3#8, 4#8, 5#8, 6#8, 7#8, 129#8] }], 1#16, 0#3) := by decide

/-! ### The row byte (95_test_vectors.md 2.1): asymmetric vectors that fix the mapping -/

/-- T-P3: leftmost only is 128. -/
theorem test_leftmost_is_128 :
    pack8 black #v[black, white, white, white, white, white, white, white] = 128#8 := by decide
/-- T-P5: XXX..... is 224. -/
theorem test_three_left_is_224 :
    pack8 black #v[black, black, black, white, white, white, white, white] = 224#8 := by decide
/-- T-E5: a partial match is unset. -/
theorem test_partial_match_unset :
    pack8 0xFF0000#24 #v[0xFF0001#24, black, black, black, black, black, black, black] = 0#8 := by decide

/-! ### Ports and host -/

/-- T-M5: the all-zero word in RUN mode. -/
theorem test_zero_word_faults :
    (nextOf (step (present 0#32 State.reset))).map (fun t => (t.status.word, t.finfo)) = some (7#32, 0#32) := by decide
/-- T-M3: an illegal word in STOPPED mode is dropped. -/
theorem test_zero_word_dropped : nextOf (step (present 0#32 faulted)) = some faulted := by decide
/-- The flat form of program P1's second record's shape (R40). -/
theorem test_flat :
    Tile.flat { idx := 1#16, b := #v[60#8, 66#8, 128#8, 128#8, 156#8, 130#8, 66#8, 62#8] }
      = 0x00013C4280809C82423E#80 := by decide
/-- S7: data("x", [1..8]). -/
theorem test_data_line :
    dataLine {} ['x'] #v[1#8, 2#8, 3#8, 4#8, 5#8, 6#8, 7#8, 8#8]
      = "gfxx            defb    1,2,3,4,5,6,7,8".toList := by decide
/-- T-F6: a 13-character label, no space and nothing cut. -/
theorem test_data_line_long :
    dataLine {} "abcdefghijklm".toList (Vector.replicate 8 0#8)
      = "gfxabcdefghijklmdefb    0,0,0,0,0,0,0,0".toList := by decide
/-- T-F3. -/
theorem test_comment_line : commentLine ['a'] = "; Graphic for a".toList := by decide
/-- T-F1. -/
theorem test_dec :
    [dec 0#8, dec 7#8, dec 10#8, dec 99#8, dec 100#8, dec 255#8].map String.ofList
      = ["0", "7", "10", "99", "100", "255"] := by decide
/-- R61: ROW; R60: a comment line and blanks. -/
theorem test_assemble_row :
    assembleLine "  ROW ; next".toList = .ok [0x20000000#32, 0x21000000#32] ∧ assembleLine "; x".toList = .ok [] := by
  decide
/-- R62's words for the first row of program P2. -/
theorem test_pushRow_words :
    pushRowWords #v[0x0000FF#24, 0x0000FF#24, 0xFF0000#24, 0xFF0000#24, 0xFF0000#24, 0xFF0000#24, 0x0000FF#24,
      0x0000FF#24]
      = [0x100000FF#32, 0x110000FF#32, 0x12FF0000#32, 0x13FF0000#32, 0x14FF0000#32, 0x15FF0000#32, 0x160000FF#32,
         0x170000FF#32, 0x21000000#32] := by decide
/-- R63, R64: ENCODE with h = 1. -/
theorem test_encode_words :
    encodeWords black 2#16 1
      = [0x01000000#32, 0x02000002#32, 0x03000000#32, 0x20000000#32, 0x21000000#32, 0x04000000#32] := by decide

/-! ### The grid: the canonical form, and a change of a cell -/

theorem test_smallGrid_wf : Memory.wf smallGrid = true := by decide
/-- Writing the colour an unlisted cell reads as removes the entry. -/
theorem test_put_removes : smallGrid.put 1 0 black = some { smallGrid with cells := [] } := by decide
theorem test_put_outside : smallGrid.put 8 0 white = none := by decide
theorem reset_memory_wf : Memory.wf State.reset.grid = true := by decide

/-! ### Witnesses: for every statement with hypotheses, and every clause, a state that meets them together -/

theorem reset_inv : State.reset.Inv :=
  { lanes := by decide
    buffer := by decide
    status := ⟨by decide, by decide, by decide, by decide, by decide, by decide⟩
    done_empty := by decide
    grid := by decide
    inputs := by simp [State.reset] }

/-- The invariants of a state at a tile boundary. -/
theorem atBoundary_inv : atBoundary.Inv :=
  { lanes := by decide
    buffer := by decide
    status := ⟨by decide, by decide, by decide, by decide, by decide, by decide⟩
    done_empty := by decide
    grid := by decide
    inputs := by simp [atBoundary, loaded, running, State.reset] }

theorem witness_EncodeOfDecode : decode 0x17FFFFFF#32 = .ok (.ldPx 7 0xFFFFFF#24) := by decide

theorem witness_DecodeIsMaskAndMatch :
    0x17FFFFFF#32 &&& maskOf (.ldPx 7 white) = patternOf (.ldPx 7 white)
      ∧ 0x17FFFFFF#32 &&& maskOf (.ldPx 0 black) = patternOf (.ldPx 0 black) := by decide

theorem witness_StepRunsDecodedCommand :
    (present 0x21000000#32 loaded).inputs = .word 0x21000000#32 :: [] ∧ decode 0x21000000#32 = .ok .pack := by decide

theorem witness_StepIsTheDispatchRule_idle : State.reset.inputs = [] := by decide
theorem witness_StepIsTheDispatchRule_stopped :
    (faulted.status.fault = true ∨ faulted.status.done = true)
      ∧ (present 0x01123456#32 faulted).inputs = [.word 0x01123456#32] ∧ decode 0x01123456#32 = .ok (.setInk 0x123456#24)
      ∧ decode 0x02000009#32 = .ok (.setLim 9#16) ∧ decode 0x03000000#32 = .ok .start := by decide
theorem witness_StepIsTheDispatchRule_dropped :
    (ended.status.fault = true ∨ ended.status.done = true) ∧ (present 0x21000000#32 ended).inputs = [.word 0x21000000#32]
      ∧ (∀ rgb, decode 0x21000000#32 ≠ .ok (.setInk rgb)) ∧ (∀ n, decode 0x21000000#32 ≠ .ok (.setLim n))
      ∧ decode 0x21000000#32 ≠ .ok .start := by
  have h : decode 0x21000000#32 = .ok .pack := by decide
  exact ⟨by decide, by decide, by simp [h], by simp [h], by simp [h]⟩
theorem witness_StepIsTheDispatchRule_running :
    running.status.fault = false ∧ running.status.done = false
      ∧ (present 0x21000000#32 running).inputs = [.word 0x21000000#32] ∧ decode 0x21000000#32 = .ok .pack := by decide

/-- The all-zero word is illegal. -/
theorem witness_illegal_word : ∀ i, decode 0x00000000#32 ≠ .ok i := by
  have h : decode 0x00000000#32 = .error .unassignedOpcode := by decide
  simp [h]

theorem witness_StoppedModeDrops :
    (faulted.status.fault = true ∨ faulted.status.done = true) ∧ (ended.status.fault = true ∨ ended.status.done = true)
      ∧ ∀ i, decode 0x00000000#32 ≠ .ok i := ⟨by decide, by decide, witness_illegal_word⟩

theorem witness_IllegalCommandFault :
    (∀ i, decode 0x00000000#32 ≠ .ok i) ∧ running.status.fault = false ∧ running.status.done = false
      ∧ (ended.status.fault = true ∨ ended.status.done = true) :=
  ⟨witness_illegal_word, by decide, by decide, by decide⟩

theorem witness_SetLimResult :
    (0x02010000#32).extractLsb' 24 8 = 0x02#8 ∧ (0x02010000#32).extractLsb' 16 8 ≠ 0x00#8
      ∧ (0x02FFFFFF#32).extractLsb' 24 8 = 0x02#8 ∧ (0x02FFFFFF#32).extractLsb' 16 8 ≠ 0x00#8 := by decide

theorem witness_StartResult : ∃ t, exec .start faulted = .next t := ⟨_, rfl⟩

theorem witness_EndResult :
    (atBoundary.stopped = false ∧ atBoundary.rowcnt ≠ 0#3) ∧ (running.stopped = false ∧ running.rowcnt = 0#3)
      ∧ ended.stopped = true ∧ faulted.stopped = true := by decide

theorem witness_ControlFrame :
    (∃ t, exec (.setInk white) running = .next t) ∧ (∃ t, exec (.setLim 1#16) running = .next t)
      ∧ (∃ t, exec .start running = .next t) ∧ (∃ t, exec .endRun running = .next t ∧ running.rowcnt = 0#3) :=
  ⟨⟨_, rfl⟩, ⟨_, rfl⟩, ⟨_, rfl⟩, ⟨_, rfl, by decide⟩⟩

theorem witness_LdPxResult : running.stopped = false := by decide

theorem witness_LdRowResult_admitted :
    running.stopped = false ∧ ∀ x : Fin 8, gridRead running.grid x (running.tileidx ++ running.rowcnt) ≠ none := by
  decide
/-- The last row, Y = H - 1. -/
theorem witness_LdRowResult_last_row :
    ∀ x : Fin 8, gridRead running.grid x (running.tileidx ++ 1#3) ≠ none := by decide
/-- The first row below the grid, Y = H: the first refused column is 7. -/
theorem witness_LdRowResult_refused :
    gridRead running.grid 7 (running.tileidx ++ 2#3) = none
      ∧ ∀ c : Fin 8, 7 < c → gridRead running.grid c (running.tileidx ++ 2#3) ≠ none := by decide

theorem witness_LdRowAdmission :
    running.stopped = false ∧ 8 ≤ running.grid.width ∧ (scanPos running).toNat < running.grid.height
      ∧ State.reset.stopped = false
      ∧ ¬(8 ≤ State.reset.grid.width ∧ (scanPos State.reset).toNat < State.reset.grid.height) := by decide

/-- A grid 7 wide (T-L8), and a row below the grid (T-L7). -/
theorem witness_GridRangeFault :
    (({ running with grid := { smallGrid with width := 7 } } : State).stopped = false
        ∧ ¬(8 ≤ ({ smallGrid with width := 7 } : Grid).width ∧ (scanPos running).toNat < smallGrid.height))
      ∧ (({ running with rowcnt := 2#3 } : State).stopped = false
        ∧ ¬(8 ≤ smallGrid.width ∧ (scanPos { running with rowcnt := 2#3 }).toNat < smallGrid.height)) := by decide

theorem witness_LaneLoadFrame :
    (∃ t, exec (.ldPx 7 white) running = .next t) ∧ (∃ t, exec .ldRow ended = .next t ∧ ended.stopped = true)
      ∧ (∃ t, exec .ldRow running = .next t ∧ t.status.fault = running.status.fault ∧ t.status.fault = false
          ∧ running.stopped = false)
      ∧ ∃ t, exec .ldRow State.reset = .next t ∧ t.status.fault ≠ State.reset.status.fault :=
  ⟨⟨_, rfl⟩, ⟨_, rfl, by decide⟩, ⟨_, rfl, by decide, by decide, by decide⟩, ⟨_, rfl, by decide⟩⟩

theorem witness_PackLaneUndefined :
    running.stopped = false ∧ running.pxv ≠ 0xFF#8
      ∧ ({ atBoundary with pxv := 0x7F#8 } : State).stopped = false
      ∧ ({ atBoundary with pxv := 0x7F#8 } : State).pxv ≠ 0xFF#8 := by decide

/-- At ROWCNT 0 and at ROWCNT 6. -/
theorem witness_PackAppendsRow :
    loaded.stopped = false ∧ loaded.pxv = 0xFF#8 ∧ (∀ x : Fin 8, loaded.px[x] = some edgeLanes[x]) ∧ loaded.rowcnt ≠ 7#3
      ∧ ({ loaded with rowcnt := 6#3 } : State).rowcnt ≠ 7#3 := by decide

/-- The eight bytes of the record of `atBoundary`. -/
def boundaryBytes : Vector Byte 8 := #v[1#8, 2#8, 3#8, 4#8, 5#8, 6#8, 7#8, 129#8]

theorem witness_PackEmitsTile :
    atBoundary.stopped = false ∧ atBoundary.pxv = 0xFF#8 ∧ (∀ x : Fin 8, atBoundary.px[x] = some edgeLanes[x])
      ∧ atBoundary.rowcnt = 7#3 ∧ atBoundary.tileidx < atBoundary.limit
      ∧ (∀ k : Fin 8, k.val < 7 → atBoundary.tbuf[k] = some boundaryBytes[k])
      ∧ boundaryBytes[7] = pack8 atBoundary.ink edgeLanes := by decide
/-- T-K13's boundary: the largest index a record can carry. -/
theorem witness_PackEmitsTile_last :
    ({ atBoundary with tileidx := 65534#16, limit := 65535#16 } : State).tileidx
      < ({ atBoundary with tileidx := 65534#16, limit := 65535#16 } : State).limit := by decide

/-- TILEIDX = LIMIT, the least index without a label. -/
theorem witness_PackOutOfLabels :
    ({ atBoundary with tileidx := 2#16 } : State).stopped = false ∧ ({ atBoundary with tileidx := 2#16 } : State).pxv = 0xFF#8
      ∧ (∀ x : Fin 8, ({ atBoundary with tileidx := 2#16 } : State).px[x] = some edgeLanes[x])
      ∧ ({ atBoundary with tileidx := 2#16 } : State).rowcnt = 7#3
      ∧ ({ atBoundary with tileidx := 2#16 } : State).limit ≤ ({ atBoundary with tileidx := 2#16 } : State).tileidx := by
  decide
/-- With LIMIT = 0 and the run's record count 0. -/
theorem witness_PackOutOfLabels_count :
    ({ atBoundary with limit := 0#16 } : State).limit ≤ ({ atBoundary with limit := 0#16 } : State).tileidx
      ∧ runRecords [] { atBoundary with limit := 0#16 } := ⟨by decide, [], rfl, by decide⟩

theorem witness_PackConsumesLanes :
    loaded.stopped = false ∧ loaded.pxv = 0xFF#8 ∧ ∃ t, exec .pack loaded = .next t ∧ t.stopped = false :=
  ⟨by decide, by decide, _, rfl, by decide⟩

theorem witness_PackFrame :
    (∃ t, exec .pack loaded = .next t ∧ loaded.rowcnt ≠ 7#3 ∧ t.status.fault = loaded.status.fault)
      ∧ ∃ t, exec .pack atBoundary = .next t
        ∧ atBoundary.stopped = false ∧ atBoundary.pxv = 0xFF#8 ∧ atBoundary.rowcnt = 7#3
        ∧ atBoundary.tileidx < atBoundary.limit :=
  ⟨⟨_, rfl, by decide, by decide⟩, ⟨_, rfl, by decide, by decide, by decide, by decide⟩⟩

/-- One witness for each of the four faults. -/
theorem witness_FaultsAndTheirCauses :
    (∃ t, step (present 0x21000000#32 { atBoundary with limit := 0#16 }) = .next t ∧ t.status.fault = true
        ∧ atBoundary.status.fault = false)
      ∧ (∃ t, step (present 0x20000000#32 State.reset) = .next t ∧ t.status.fault = true)
      ∧ (∃ t, step (present 0x00000000#32 State.reset) = .next t ∧ t.status.fault = true)
      ∧ ∃ t, step (present 0x21000000#32 State.reset) = .next t ∧ t.status.fault = true
        ∧ State.reset.status.fault = false :=
  ⟨⟨_, rfl, by decide, by decide⟩, ⟨_, rfl, by decide⟩, ⟨_, rfl, by decide⟩, ⟨_, rfl, by decide, by decide⟩⟩

theorem witness_OnlyStartLeavesStopped :
    faulted.stopped = true ∧ ∃ t, step (present 0x03000000#32 faulted) = .next t ∧ t.stopped = false :=
  ⟨by decide, _, rfl, by decide⟩

theorem witness_FirstFaultIsKept :
    faulted.stopped = true ∧ ended.stopped = true ∧ (∃ t, step (present 0x21000000#32 faulted) = .next t)
      ∧ decode 0x21000000#32 ≠ .ok .start := ⟨by decide, by decide, ⟨_, rfl⟩, by decide⟩

theorem witness_ResetEvent :
    ({ faulted with inputs := [.reset (some 0x21000000#32)] } : State).inputs = .reset (some 0x21000000#32) :: []
      ∧ ({ faulted with inputs := [.reset none] } : State).inputs = .reset none :: [] := ⟨rfl, rfl⟩

/-- Two machines that differ in lanes, buffer, counters and mode only. -/
theorem witness_StartForgetsEarlierRun :
    atBoundary ≠ { ended with limit := 2#16 } ∧ atBoundary.ink = ({ ended with limit := 2#16 } : State).ink
      ∧ atBoundary.limit = ({ ended with limit := 2#16 } : State).limit
      ∧ atBoundary.grid = ({ ended with limit := 2#16 } : State).grid
      ∧ atBoundary.out = ({ ended with limit := 2#16 } : State).out
      ∧ atBoundary.inputs = ({ ended with limit := 2#16 } : State).inputs := by decide

/-- A state at a tile boundary with a PACK presented keeps the invariants, and its step completes. -/
theorem present_inv {s : State} (h : s.Inv) (w : Word) : (present w s).Inv :=
  { lanes := h.lanes
    buffer := h.buffer
    status := h.status
    done_empty := h.done_empty
    grid := h.grid
    inputs := by
      intro i hi
      rcases List.mem_cons.1 hi with rfl | hi
      · rfl
      · exact h.inputs i hi }

theorem witness_StepKeepsInvariants :
    (present 0x21000000#32 atBoundary).Inv ∧ ∃ t, step (present 0x21000000#32 atBoundary) = .next t :=
  ⟨present_inv atBoundary_inv _, _, rfl⟩

theorem witness_EveryWordCompletes : (present 0x21000000#32 atBoundary).Inv := present_inv atBoundary_inv _

theorem witness_RunRecordsAreNumbered :
    runRecords [] (present 0x21000000#32 atBoundary) ∧ (∃ t, step (present 0x21000000#32 atBoundary) = .next t)
      ∧ (∀ w rest, (present 0x21000000#32 atBoundary).inputs = .word w :: rest → decode w ≠ .ok .start)
      ∧ (∀ d rest, (present 0x21000000#32 atBoundary).inputs ≠ .reset d :: rest)
      ∧ ∃ t, exec .start atBoundary = .next t := by
  refine ⟨⟨[], rfl, by decide⟩, ⟨_, rfl⟩, ?_, ?_, ⟨_, rfl⟩⟩
  · intro w rest h
    have hw : 0x21000000#32 = w := by
      simp only [present_inputs, List.cons.injEq, Input.word.injEq] at h
      exact h.1
    subst hw
    decide
  · intro d rest h
    simp at h

theorem witness_TileIndexWithinLimit :
    (∃ t, step (present 0x21000000#32 atBoundary) = .next t) ∧ atBoundary.tileidx ≤ atBoundary.limit
      ∧ ∀ n, decode 0x21000000#32 = .ok (.setLim n) → atBoundary.tileidx ≤ n := by
  have h : decode 0x21000000#32 = .ok .pack := by decide
  exact ⟨⟨_, rfl⟩, by decide, by simp [h]⟩

theorem witness_ScanPositionMoves :
    (∃ t, exec .pack atBoundary = .next t ∧ atBoundary.stopped = false ∧ t.status.fault = false)
      ∧ (∃ t, exec .pack loaded = .next t ∧ loaded.stopped = false ∧ t.status.fault = false)
      ∧ (∃ t, exec .start atBoundary = .next t)
      ∧ (∃ t, exec .endRun atBoundary = .next t ∧ atBoundary.stopped = false)
      ∧ (∃ t, exec .pack { atBoundary with limit := 0#16 } = .next t ∧ t.status.fcode = .outOfLabels
          ∧ atBoundary.status.fcode ≠ .outOfLabels)
      ∧ ∃ t, exec .ldRow running = .next t :=
  ⟨⟨_, rfl, by decide, by decide⟩, ⟨_, rfl, by decide, by decide⟩, ⟨_, rfl⟩, ⟨_, rfl, by decide⟩,
    ⟨_, rfl, by decide, by decide⟩, ⟨_, rfl⟩⟩

theorem witness_OutIsAppendOnly :
    ∃ t, step (present 0x21000000#32 atBoundary) = .next t ∧ t.out ≠ atBoundary.out := ⟨_, rfl, by decide⟩

theorem witness_BlockNeverWritesGrid :
    nextIsWord (present 0x20000000#32 running) ∧ ∃ t, step (present 0x20000000#32 running) = .next t :=
  ⟨⟨_, _, rfl⟩, _, rfl⟩

/-- The scan of a grid with one row more than a tile: W >= 8, H >= h. -/
theorem witness_ScanRunResult :
    8 ≤ ({ running with grid := { smallGrid with height := 9 } } : State).grid.width
      ∧ 9 ≤ ({ running with grid := { smallGrid with height := 9 } } : State).grid.height
      ∧ 9 / 8 ≤ (1#16).toNat ∧ (0#16).toNat < 9 / 8 := by decide

/-- A blank grid of one whole tile: no pixel equals white, every pixel equals black. -/
theorem witness_ScanRunResult_uniform :
    8 % 8 = 0
      ∧ (∀ (x : Fin 8) (y : Nat), y < 8 → ({ width := 8, height := 8, cells := [] } : Grid).read x.val y ≠ some white)
      ∧ ∀ (x : Fin 8) (y : Nat), y < 8 → ({ width := 8, height := 8, cells := [] } : Grid).read x.val y = some black := by
  decide

theorem witness_HostSeesFiveRegisters :
    loaded ≠ running ∧ loaded.ink = running.ink ∧ loaded.limit = running.limit ∧ loaded.tileidx = running.tileidx
      ∧ loaded.rowcnt = running.rowcnt ∧ loaded.status = running.status ∧ loaded.finfo = running.finfo := by decide

theorem witness_FlatRecordFields :
    Tile.flat { idx := 0#16, b := boundaryBytes } = Tile.flat { idx := 0#16, b := boundaryBytes } := rfl

theorem witness_CanonicalGridsAreEqual :
    Memory.wf smallGrid = true ∧ ∀ x y, smallGrid.read x y = smallGrid.read x y := ⟨by decide, fun _ _ => rfl⟩

/-- The last cell of the grid. -/
theorem witness_CellChangeIsSeen :
    Memory.wf running.grid = true ∧ ({ running with inputs := [.setCell 7 1 white] } : State).inputs = [.setCell 7 1 white]
      ∧ 7 < running.grid.width ∧ 1 < running.grid.height := by decide

theorem witness_TwoWordsAreRefused :
    ({ running with inputs := [.twoWords 0#32 1#32] } : State).inputs = .twoWords 0#32 1#32 :: [] := rfl

theorem witness_LeftJustify : 4 ≤ (['g', 'f', 'x', 'x'] : Text).length := by decide

/-- Inside the gap of a short label: column 4 of "gfxx". -/
theorem witness_DataLineLayout : 3 + (['x'] : Text).length ≤ 4 ∧ 4 < ({} : FormatParams).colw := by decide

theorem witness_LineSequenceOfRun :
    (∃ ls, runLines {} [['a']] [{ idx := 0#16, b := boundaryBytes }] = some ls)
      ∧ ∀ r ∈ [({ idx := 0#16, b := boundaryBytes } : Tile)], r.idx.toNat < [(['a'] : Text)].length :=
  ⟨⟨_, rfl⟩, by decide⟩

/-- The least height that needs 65536 tiles. -/
theorem witness_TooManyLabelsRefused_height :
    ([] : List Text).length ≤ 65535 ∧ 65535 < ({ width := 8, height := 524288, cells := [] } : Grid).height / 8
      ∧ 8 ≤ ({ width := 8, height := 524288, cells := [] } : Grid).width := by decide

theorem witness_TooManyLabelsRefused : 65535 < (List.replicate 65536 ([] : Text)).length :=
  Nat.lt_of_lt_of_eq (by decide) List.length_replicate.symm

/-- An empty image: no line, a success; no label and a full tile: OutOfLabels; seven columns: ImageLoadError. -/
theorem witness_EncodeContract :
    ([] : List Text).length ≤ 65535 ∧ 8 ≤ ({ smallGrid with height := 8 } : Grid).width
      ∧ ([] : List Text).length < ({ smallGrid with height := 8 } : Grid).height / 8
      ∧ smallGrid.height / 8 ≤ ([] : List Text).length
      ∧ ({ smallGrid with width := 7 } : Grid).width < 8 ∧ 0 < smallGrid.height := by decide

theorem witness_SinkOnlyAfterSuccess :
    ∃ text dropped, (convert {} (some smallGrid) true black [] State.reset).1 = .written text dropped := ⟨_, _, rfl⟩

end Sys2Proof.Tests
end

section
/-! The registers right after reset, and the host's view of the registers (10_state.md R13, R19, R20, R25, R26). -/

namespace Sys2Proof.Machine

/-! ### The two parts of the scan position -/

/-- TILEIDX stands above the three bits of ROWCNT (R13, R19). -/
@[simp] theorem scanPos_extract_tileidx (s : State) : (scanPos s).extractLsb' 3 16 = s.tileidx :=
  BitVec.extractLsb'_append_eq_left

@[simp] theorem scanPos_extract_rowcnt (s : State) : (scanPos s).extractLsb' 0 3 = s.rowcnt :=
  BitVec.extractLsb'_append_eq_right

/-- Y is a function of the two counters alone (R13). -/
theorem scanPos_congr {s t : State} (htile : t.tileidx = s.tileidx) (hrow : t.rowcnt = s.rowcnt) :
    scanPos t = scanPos s := by
  unfold scanPos
  rw [htile, hrow]

/-! ### The STATUS register and the reset event -/

/-- The cleared STATUS is the all-zero register (R20, R25). -/
@[simp] theorem Status.word_clear : Status.clear.word = 0x00000000#32 := by decide

/-- Settles O35: each register of the reset state by name, and OUT by the frame of the reset event. -/
theorem resetValues : Obligations.ResetValues := by
  have hlanes : ∀ x : Fin 8, State.reset.px[x] = none := fun x => novalueLanes_getElem x.val x.isLt
  have hbuffer : ∀ k : Fin 8, State.reset.tbuf[k] = none := fun k => novalueBytes_getElem k.val k.isLt
  have hstatus : State.reset.status.word = 0x00000000#32 := Status.word_clear
  have hrun : State.reset.stopped = false := (running_iff State.reset).2 ⟨rfl, rfl⟩
  exact ⟨hlanes, rfl, rfl, rfl, hbuffer, rfl, rfl, hstatus, rfl, hrun, resetBlock_out⟩

/-! ### What the host observes -/

/-- The host tells two states apart only by CR0..CR4 (R26). -/
theorem hostView_eq_iff (s t : State) :
    t.hostView = s.hostView
      ↔ t.ink = s.ink ∧ t.limit = s.limit ∧ scanPos t = scanPos s ∧ t.status.word = s.status.word
        ∧ t.finfo = s.finfo := by
  simp [State.hostView]

/-- Settles O48: the view's five fields, SCANPOS by its two parts; and equal registers make equal views. -/
theorem hostSeesFiveRegisters : Obligations.HostSeesFiveRegisters := by
  constructor
  · intro s
    exact ⟨rfl, rfl, rfl, rfl, scanPos_extract_tileidx s, scanPos_extract_rowcnt s⟩
  · intro s t hink hlimit htile hrow hstatus hfinfo
    exact (hostView_eq_iff s t).2
      ⟨hink, hlimit, scanPos_congr htile hrow, congrArg Status.word hstatus, hfinfo⟩

end Sys2Proof.Machine
end

section
/-! R65's `Step(w)` by cases: nothing presented, a command, an illegal word, in RUN and in STOPPED mode (R141, R142). -/

namespace Sys2Proof.Machine

/-- STOPPED mode is FAULT = 1 or DONE = 1 (R141). -/
theorem stopped_iff (s : State) : s.stopped = true ↔ s.status.fault = true ∨ s.status.done = true := by
  simp [State.stopped]

/-! ### What is presented -/

theorem step_of_idle {s : State} (h : s.inputs = []) : step s = .next s := by
  simp [step, takeInput, h]

theorem step_of_word {s : State} {w : Word} {rest : List Input} (h : s.inputs = .word w :: rest) :
    step s = acceptWord w { s with inputs := rest } := by
  simp [step, takeInput, accept, h]

/-! ### What a word does -/

theorem acceptWord_of_command {w : Word} {i : Instr} (s : State) (h : decode w = .ok i) :
    acceptWord w s = exec i s := by
  simp [acceptWord, h]

theorem acceptWord_of_illegal {w : Word} (s : State) (h : ∀ i, decode w ≠ .ok i) :
    acceptWord w s = .next (illegalCommand w s) := by
  rcases acceptWord_cases w s with ⟨i, hi, -⟩ | ⟨-, -, heq⟩
  · exact absurd hi (h i)
  · exact heq

theorem illegalCommand_of_running {s : State} (w : Word) (h : s.stopped = false) :
    illegalCommand w s = raise .illegalCommand w s := by
  simp [illegalCommand, h]

theorem illegalCommand_of_stopped {s : State} (w : Word) (h : s.stopped = true) : illegalCommand w s = s := by
  simp [illegalCommand, h]

/-! ### What STOPPED mode drops -/

/-- Every command but SETINK, SETLIM and START is dropped by its own meaning (R142). -/
theorem exec_of_stopped {s : State} {i : Instr} (hs : s.stopped = true) (hink : ∀ rgb, i ≠ .setInk rgb)
    (hlim : ∀ n, i ≠ .setLim n) (hstart : i ≠ .start) : exec i s = .next s := by
  cases i with
  | setInk rgb => exact absurd rfl (hink rgb)
  | setLim n => exact absurd rfl (hlim n)
  | start => exact absurd rfl hstart
  | endRun => simp [exec, execEndRun, hs]
  | ldPx lane rgb => simp [exec, execLdPx, hs]
  | ldRow => simp [exec, execLdRow, hs]
  | pack => simp [exec, execPack, hs]

/-- Every word but SETINK, SETLIM and START is dropped, a legal one by `exec_of_stopped`, an illegal one unrecorded. -/
theorem acceptWord_of_stopped {s : State} {w : Word} (hs : s.stopped = true)
    (hink : ∀ rgb, decode w ≠ .ok (.setInk rgb)) (hlim : ∀ n, decode w ≠ .ok (.setLim n))
    (hstart : decode w ≠ .ok .start) : acceptWord w s = .next s := by
  rcases acceptWord_cases w s with ⟨i, hi, heq⟩ | ⟨-, -, heq⟩
  · rw [hi] at hink hlim hstart
    rw [heq]
    exact exec_of_stopped hs (fun rgb h => hink rgb (congrArg _ h)) (fun n h => hlim n (congrArg _ h))
      (fun h => hstart (congrArg _ h))
  · rw [heq, illegalCommand_of_stopped w hs]

/-- Settles O7: the word is taken off the front, then `acceptWord` by mode and by what the word decodes to. -/
theorem stepIsTheDispatchRule : Obligations.StepIsTheDispatchRule := by
  refine ⟨fun _ hidle => step_of_idle hidle, fun s w rest hword => ?_⟩
  have hcommand : ∀ i, decode w = .ok i → step s = exec i { s with inputs := rest } := fun _ hi =>
    (step_of_word hword).trans (acceptWord_of_command _ hi)
  constructor
  · intro hmode
    have hstopped : ({ s with inputs := rest } : State).stopped = true := (stopped_iff s).2 hmode
    exact ⟨fun _ => hcommand _, fun _ => hcommand _, hcommand _, fun hink hlim hstart =>
      (step_of_word hword).trans (acceptWord_of_stopped hstopped hink hlim hstart)⟩
  · intro hfault hdone
    have hrun : ({ s with inputs := rest } : State).stopped = false := (running_iff s).2 ⟨hfault, hdone⟩
    refine ⟨hcommand, fun hillegal => ?_⟩
    rw [step_of_word hword, acceptWord_of_illegal _ hillegal, illegalCommand_of_running w hrun, raise]

end Sys2Proof.Machine
end

section
/-! Lane loads: LDPX and LDROW, their effects and their frame (41_lane_load.md R70 to R73). -/

namespace Sys2Proof.Machine

/-! ### One lane written -/

/-- Each lane's mask is its own valid bit alone (R12). -/
theorem laneMask_getLsbD (lane x : Fin 8) : (laneMask lane).getLsbD x.val = decide (x = lane) := by
  revert lane x
  decide

theorem writeLane_px_same (lane : Fin 8) (rgb : Pixel) (s : State) : (writeLane lane rgb s).px[lane] = some rgb := by
  simp

theorem writeLane_px_other {lane x : Fin 8} (h : x ≠ lane) (rgb : Pixel) (s : State) :
    (writeLane lane rgb s).px[x] = s.px[x] :=
  Vector.getElem_set_ne lane.isLt x.isLt (Fin.val_ne_of_ne h.symm)

theorem writeLane_pxv_same (lane : Fin 8) (rgb : Pixel) (s : State) :
    (writeLane lane rgb s).pxv.getLsbD lane.val = true := by
  rw [writeLane_pxv, BitVec.getLsbD_or, laneMask_getLsbD]
  simp

theorem writeLane_pxv_other {lane x : Fin 8} (h : x ≠ lane) (rgb : Pixel) (s : State) :
    (writeLane lane rgb s).pxv.getLsbD x.val = s.pxv.getLsbD x.val := by
  rw [writeLane_pxv, BitVec.getLsbD_or, laneMask_getLsbD]
  simp [h]

/-! ### The row fetch, by what the grid admits -/

/-- A row whose cells are all admitted is fetched as it stands in the grid. -/
theorem fetchRow_eq_ok {g : Grid} {y : BitVec 19} (h : ∀ x : Fin 8, gridRead g x y ≠ none) :
    fetchRow g y = .ok (Vector.ofFn (fun x : Fin 8 => gridRead g x y)) := by
  obtain ⟨v, hv⟩ := fetchRow_of_admitted (fun x => Option.isSome_iff_ne_none.2 (h x))
  have hrow : v = Vector.ofFn (fun x : Fin 8 => gridRead g x y) := by
    ext1 i hi
    rw [Vector.getElem_ofFn]
    exact (fetchRow_ok hv ⟨i, hi⟩).1
  rw [hv, hrow]

/-- The fetch stops at the rightmost refused column: columns are read from 7 down (R72). -/
theorem fetchRow_eq_error {g : Grid} {y : BitVec 19} {x : Fin 8} (hx : gridRead g x y = none)
    (hright : ∀ c : Fin 8, x < c → gridRead g c y ≠ none) : fetchRow g y = .error x := by
  cases hf : fetchRow g y with
  | ok v =>
    obtain ⟨hcell, hsome⟩ := fetchRow_ok hf x
    rw [hcell, hx] at hsome
    cases hsome
  | error z =>
    obtain ⟨hz, hzright⟩ := fetchRow_error hf
    have hxz : ¬x < z := fun hlt => hright z hlt hz
    have hzx : ¬z < x := fun hlt => Option.isSome_iff_ne_none.1 (hzright x hlt) hx
    rw [le_antisymm (not_lt.1 hxz) (not_lt.1 hzx)]

/-! ### The two commands in RUN mode -/

theorem exec_ldPx_of_running {s : State} (hs : s.stopped = false) (lane : Fin 8) (rgb : Pixel) :
    exec (.ldPx lane rgb) s = .next (writeLane lane rgb s) := by
  simp [exec, execLdPx, hs]

theorem exec_ldRow_of_running {s : State} (hs : s.stopped = false) : exec .ldRow s = .next (loadRow s) := by
  simp [exec, execLdRow, hs]

theorem loadRow_of_ok {s : State} {v : Vector (Option Pixel) 8} (h : fetchRow s.grid (scanPos s) = .ok v) :
    loadRow s = writeLanes v s := by
  simp [loadRow, h]

theorem loadRow_of_error {s : State} {x : Fin 8} (h : fetchRow s.grid (scanPos s) = .error x) :
    loadRow s = raise .gridRange (gridRangeInfo (scanPos s) x) s := by
  simp [loadRow, h]

/-- The word's fields stand side by side: five opcode bits, three lane bits, the colour (R54). -/
theorem encode_ldPx_toNat (lane : Fin 8) (rgb : Pixel) :
    (encode (.ldPx lane rgb)).toNat = 0x10000000 + lane.val * 2 ^ 24 + rgb.toNat := by
  have hlane : (BitVec.ofNat 3 lane.val).toNat = lane.val := Nat.mod_eq_of_lt lane.isLt
  have hlow : (BitVec.ofNat 3 lane.val ++ rgb).toNat = lane.val * 2 ^ 24 + rgb.toNat := by
    rw [BitVec.toNat_append, hlane, ← Nat.shiftLeft_add_eq_or_of_lt rgb.isLt, Nat.shiftLeft_eq]
  rw [encode, BitVec.toNat_append, ← Nat.shiftLeft_add_eq_or_of_lt (BitVec.isLt _), hlow, Nat.shiftLeft_eq]
  simp [Nat.add_assoc]

/-- Settles O16: the word by its fields, and `writeLane` as the whole effect. -/
theorem ldPxResult : Obligations.LdPxResult := fun lane rgb _ =>
  ⟨encode_ldPx_toNat lane rgb, fun hs => exec_ldPx_of_running hs lane rgb⟩

/-- Settles O17: the grid decides what the row fetch answers, and the fetch decides between the two effects. -/
theorem ldRowResult : Obligations.LdRowResult := by
  refine ⟨rfl, fun s hs => ⟨fun hadmitted => ?_, fun x hx hright => ?_⟩⟩
  · rw [exec_ldRow_of_running hs, loadRow_of_ok (fetchRow_eq_ok hadmitted)]
    rfl
  · rw [exec_ldRow_of_running hs, loadRow_of_error (fetchRow_eq_error hx hright)]
    rfl

/-! ### The frame -/

/-- Every next state of a lane load: dropped, one lane written, all lanes written, or GridRange recorded. -/
theorem exec_laneLoad_next {i : Instr} {s t : State} (hi : (∃ lane rgb, i = .ldPx lane rgb) ∨ i = .ldRow)
    (h : exec i s = .next t) :
    (s.stopped = true ∧ t = s)
      ∨ (s.stopped = false ∧ ∃ lane rgb, i = .ldPx lane rgb ∧ t = writeLane lane rgb s)
      ∨ (s.stopped = false ∧ i = .ldRow ∧ ∃ v, fetchRow s.grid (scanPos s) = .ok v ∧ t = writeLanes v s)
      ∨ (s.stopped = false ∧ i = .ldRow ∧ ∃ x, t = raise .gridRange (gridRangeInfo (scanPos s) x) s) := by
  rcases hi with ⟨lane, rgb, rfl⟩ | rfl
  · rcases execLdPx_cases lane rgb s with ⟨hs, e⟩ | ⟨hs, e⟩
    · exact .inl ⟨hs, Host.Outcome.next.inj (h.symm.trans e)⟩
    · exact .inr (.inl ⟨hs, lane, rgb, rfl, Host.Outcome.next.inj (h.symm.trans e)⟩)
  · rcases execLdRow_cases s with ⟨hs, e⟩ | ⟨hs, v, hv, e⟩ | ⟨hs, x, -, e⟩
    · exact .inl ⟨hs, Host.Outcome.next.inj (h.symm.trans e)⟩
    · exact .inr (.inr (.inl ⟨hs, rfl, v, hv, Host.Outcome.next.inj (h.symm.trans e)⟩))
    · exact .inr (.inr (.inr ⟨hs, rfl, x, Host.Outcome.next.inj (h.symm.trans e)⟩))

/-- Settles O20: the four next states of a lane load, each read field by field. -/
theorem laneLoadFrame : Obligations.LaneLoadFrame := by
  intro i s t hi h
  rcases exec_laneLoad_next hi h with ⟨hs, rfl⟩ | ⟨hs, lane, rgb, rfl, rfl⟩ | ⟨hs, rfl, v, hv, rfl⟩
    | ⟨hs, rfl, x, rfl⟩
  · -- dropped
    have hdead : ∀ {p : Prop}, t.stopped = false → p := fun hrun => absurd hrun (by simp [hs])
    exact ⟨by simp, fun _ => ⟨rfl, rfl⟩, fun _ => ⟨rfl, rfl⟩, fun _ => rfl,
      fun _ _ _ => ⟨rfl, rfl, hdead, fun _ _ => ⟨rfl, rfl⟩⟩, fun _ => hdead, by simp⟩
  · -- one lane written
    refine ⟨by simp, fun _ => ⟨rfl, rfl⟩, fun hfault => absurd rfl hfault, by simp [hs], ?_, by simp, by simp⟩
    intro lane' rgb' he
    cases he
    exact ⟨rfl, rfl, fun _ => ⟨writeLane_px_same lane rgb s, writeLane_pxv_same lane rgb s⟩,
      fun x hx => ⟨writeLane_px_other hx rgb s, writeLane_pxv_other hx rgb s⟩⟩
  · -- all lanes written
    exact ⟨by simp, fun _ => ⟨rfl, rfl⟩, fun hfault => absurd rfl hfault, by simp [hs], by simp,
      fun _ _ _ => ⟨rfl, fun x => (fetchRow_ok hv x).1⟩, by simp⟩
  · -- GridRange recorded, where FAULT was 0
    have hfault : s.status.fault = false := ((running_iff s).1 hs).1
    exact ⟨by simp, by simp [hfault], fun _ => ⟨rfl, rfl⟩, by simp [hs], by simp, by simp, by simp⟩

end Sys2Proof.Machine
end

section
/-! The row byte: one comparator bit per column, summed with the weights and wired side by side (42_pack.md R80 to R83). -/

namespace Sys2Proof.Machine

/-! ### The comparators -/

/-- A comparator's output is one bit wide (R81). -/
theorem eq24_le_one (a b : Pixel) : eq24 a b ≤ 1 := by
  unfold eq24
  split <;> decide

/-- M[x] is 1 exactly when column x's pixel is the ink (R81). -/
theorem matchBit_eq_ite (ink : Pixel) (p : Vector Pixel 8) (x : Fin 8) :
    matchBit ink p x = if p[x] = ink then 1#1 else 0#1 := by
  unfold matchBit eq24
  split <;> rfl

/-- M[x] as a number is the comparator's answer. -/
theorem matchBit_toNat (ink : Pixel) (p : Vector Pixel 8) (x : Fin 8) :
    (matchBit ink p x).toNat = eq24 p[x] ink := by
  rw [matchBit, BitVec.toNat_ofNat]
  exact Nat.mod_eq_of_lt (Nat.lt_succ_of_le (eq24_le_one _ _))

theorem matchBit_getLsbD (ink : Pixel) (p : Vector Pixel 8) (x : Fin 8) :
    (matchBit ink p x).getLsbD 0 = decide (p[x] = ink) := by
  rw [matchBit_eq_ite]
  by_cases h : p[x] = ink
  · rw [if_pos h, decide_eq_true h]
    rfl
  · rw [if_neg h, decide_eq_false h]
    rfl

/-! ### The adder -/

/-- R80's sum, term by term from column 0 to column 7. -/
theorem weightedSum_eq (ink : Pixel) (p : Vector Pixel 8) :
    weightedSum ink p
      = eq24 p[(0 : Fin 8)] ink * 128 + eq24 p[(1 : Fin 8)] ink * 64 + eq24 p[(2 : Fin 8)] ink * 32
        + eq24 p[(3 : Fin 8)] ink * 16 + eq24 p[(4 : Fin 8)] ink * 8 + eq24 p[(5 : Fin 8)] ink * 4
        + eq24 p[(6 : Fin 8)] ink * 2 + eq24 p[(7 : Fin 8)] ink * 1 := by
  simp [weightedSum, columns, weight, Nat.add_assoc]

/-- The exact sum fits in the eight bits of the byte (R83 (b)). -/
theorem weightedSum_le_255 (ink : Pixel) (p : Vector Pixel 8) : weightedSum ink p ≤ 255 := by
  calc weightedSum ink p
      ≤ (columns.map weight).sum :=
        List.sum_le_sum fun x _ => Nat.le_trans (Nat.mul_le_mul_right _ (eq24_le_one _ _)) (Nat.one_mul _).le
    _ = 255 := by decide

/-- Narrowing to eight bits loses nothing of the sum. -/
theorem pack8_toNat (ink : Pixel) (p : Vector Pixel 8) : (pack8 ink p).toNat = weightedSum ink p := by
  rw [pack8, BitVec.toNat_ofNat]
  exact Nat.mod_eq_of_lt (Nat.lt_succ_of_le (weightedSum_le_255 ink p))

/-- Settles O21: the byte is the exact sum, and each comparator's answer is the `if` of its column. -/
theorem rowByteIsWeightedSum : Obligations.RowByteIsWeightedSum := by
  intro ink p
  rw [pack8_toNat, weightedSum_eq]
  rfl

/-! ### Plain wiring -/

/-- Appending a bit on the right doubles a number and adds the bit, so the wired bits carry the columns' weights. -/
theorem wiredByte_toNat (ink : Pixel) (p : Vector Pixel 8) : (wiredByte ink p).toNat = weightedSum ink p := by
  simp only [wiredByte, append_toNat, matchBit_toNat, weightedSum_eq]
  omega

theorem pack8_eq_wiredByte (ink : Pixel) (p : Vector Pixel 8) : pack8 ink p = wiredByte ink p :=
  BitVec.eq_of_toNat_eq ((pack8_toNat ink p).trans (wiredByte_toNat ink p).symm)

/-- Bit 7 - x of the wired byte is M[x] (R82), column by column. -/
theorem wiredByte_getLsbD (ink : Pixel) (p : Vector Pixel 8) (x : Fin 8) :
    (wiredByte ink p).getLsbD (7 - x.val) = (matchBit ink p x).getLsbD 0 := by
  simp only [wiredByte, BitVec.getLsbD_append]
  fin_cases x <;> rfl

/-- Settles O22: the sum and the wiring are one number, so the byte's bits are the wired comparator bits. -/
theorem rowByteWiring : Obligations.RowByteWiring := by
  intro ink p
  refine ⟨pack8_eq_wiredByte ink p, fun x => ?_, matchBit_eq_ite ink p, ?_⟩
  · rw [pack8_eq_wiredByte, wiredByte_getLsbD, matchBit_getLsbD]
  · simp only [matchBit_toNat]
    rw [pack8_toNat, weightedSum_eq]

end Sys2Proof.Machine
end

section
/-! PACK and the lanes: the lane check, and the row consumed by a PACK that passes it (42_pack.md R84, R87). -/

namespace Sys2Proof.Machine

/-- A PACK that the lane check stops records LaneUndefined and does nothing else (R140). -/
theorem exec_pack_of_laneUndefined {s : State} (hs : s.stopped = false) (hv : s.pxv ≠ 0xFF#8) :
    exec .pack s = .next (raise .laneUndefined (laneUndefinedInfo s.pxv) s) := by
  simp [exec, execPack, packRow, hs, hv]

/-- However the append and the finalize go on, the lanes stay as they were handed over. -/
theorem acceptByte_keeps_lanes {b : Byte} {s t : State} (h : acceptByte b s = .next t) :
    t.px = s.px ∧ t.pxv = s.pxv := by
  rcases acceptByte_cases b s with ⟨-, e⟩ | ⟨-, -, e⟩ | ⟨-, -, bytes, -, e⟩ | ⟨-, -, -, e⟩
  · -- the next row
    cases e.symm.trans h
    exact ⟨rfl, rfl⟩
  · -- OutOfLabels
    cases e.symm.trans h
    exact ⟨rfl, rfl⟩
  · -- the record emitted
    cases e.symm.trans h
    exact ⟨rfl, rfl⟩
  · -- the buffer read refused
    cases e.symm.trans h

/-- A PACK that passes the lane check consumes the row (R87). -/
theorem exec_pack_consumes_lanes {s t : State} (hs : s.stopped = false) (hv : s.pxv = 0xFF#8)
    (h : exec .pack s = .next t) : t.px = novalueLanes ∧ t.pxv = 0x00#8 := by
  have hpack : execPack s = .next t := h
  rcases execPack_cases s with ⟨hstop, -⟩ | ⟨-, hne, -⟩ | ⟨-, -, p, -, e⟩ | ⟨-, -, -, e⟩
  · simp [hs] at hstop
  · exact absurd hv hne
  · exact acceptByte_keeps_lanes (e.symm.trans hpack)
  · cases e.symm.trans hpack

/-- Settles O29: the first PACK consumes the lanes, and the lane check stops the second on PXV = 0x00. -/
theorem packConsumesLanes : Obligations.PackConsumesLanes := by
  intro s t hs hv h
  obtain ⟨hpx, hpxv⟩ := exec_pack_consumes_lanes hs hv h
  refine ⟨hpxv, fun x => ?_, fun ht => ?_⟩
  · rw [hpx]
    exact novalueLanes_getElem x.val x.isLt
  · have hundefined : t.pxv ≠ 0xFF#8 := by simp [hpxv]
    refine ⟨_, exec_pack_of_laneUndefined ht hundefined, rfl, rfl, ?_⟩
    rw [raise_finfo, hpxv]
    rfl

end Sys2Proof.Machine
end

section
/-! Configuration and run control: the words of SETINK, SETLIM, START and END, and their effects (43_control.md R100 to
R104). -/

namespace Sys2Proof.Machine

/-! ### SETINK and SETLIM -/

/-- The opcode byte stands above the colour (R52). -/
theorem encode_setInk_toNat (rgb : Pixel) : (encode (.setInk rgb)).toNat = 0x01000000 + rgb.toNat := by
  rw [encode, append_toNat]
  rfl

/-- The opcode byte and a zero byte stand above the count (R53). -/
theorem encode_setLim_toNat (n : BitVec 16) : (encode (.setLim n)).toNat = 0x02000000 + n.toNat := by
  rw [encode, append_toNat, append_toNat]
  simp

/-- Settles O11: the word by its fields, and the one register written whatever the mode. -/
theorem setInkResult : Obligations.SetInkResult := fun rgb _ => ⟨encode_setInk_toNat rgb, rfl⟩

/-! ### The words with SETLIM's opcode that are no command -/

/-- A row of the opcode map constrains the opcode byte by its mask's top byte alone (R56). -/
theorem opcodeField_of_match {w mask pattern : Word} (h : w &&& mask = pattern) :
    opcodeField w &&& opcodeField mask = opcodeField pattern := by
  rw [← h]
  exact BitVec.extractLsb'_and.symm

/-- Of the rows of the opcode map only SETLIM's has opcode 0x02, and it wants w[23:16] zero (R53, R58). -/
theorem decode_of_highByteNotZero {w : Word} (hop : opcodeField w = 0x02#8) (hhigh : w.extractLsb' 16 8 ≠ 0x00#8) :
    decode w = .error .highByteNotZero := by
  have hother : ∀ {mask pattern : Word}, 0x02#8 &&& opcodeField mask ≠ opcodeField pattern → w &&& mask ≠ pattern :=
    fun hne h => hne (hop ▸ opcodeField_of_match h)
  have hfixed : ∀ {pattern : Word}, 0x02#8 ≠ opcodeField pattern → w ≠ pattern := fun hne h => hne (by rw [← hop, h])
  have hsetLim : w &&& 0xFFFF0000#32 ≠ 0x02000000#32 := by
    intro h
    have hbyte : w.extractLsb' 16 8 &&& 0xFF#8 = 0x00#8 :=
      BitVec.extractLsb'_and.symm.trans (congrArg (BitVec.extractLsb' 16 8) h)
    exact hhigh ((BitVec.and_allOnes (x := w.extractLsb' 16 8)).symm.trans hbyte)
  have hclass : illegalClass w = .highByteNotZero := by simp [illegalClass, hop]
  rw [decode, if_neg (hother (by decide)), if_neg hsetLim, if_neg (hfixed (by decide)), if_neg (hfixed (by decide)),
    if_neg (hother (by decide)), if_neg (hfixed (by decide)), if_neg (hfixed (by decide)), hclass]

/-- Settles O12: the word by its fields, the one register written, and the decoder's refusal of a non-zero w[23:16]. -/
theorem setLimResult : Obligations.SetLimResult := by
  refine ⟨fun n _ => ⟨encode_setLim_toNat n, rfl⟩, fun w hop hhigh i => ?_⟩
  rw [decode_of_highByteNotZero hop hhigh]
  simp

/-! ### START -/

/-- START's whole effect is the entry of a run, in either mode (R103). -/
theorem exec_start (s : State) : exec .start s = .next (beginRun s) := rfl

/-- The reset event leaves nothing that the entry of a run would clear (R25, R103). -/
@[simp] theorem beginRun_resetBlock (s : State) : beginRun (resetBlock s) = resetBlock s := rfl

/-- What a run's entry clears is clear after it (R103). -/
@[simp] theorem beginRun_beginRun (s : State) : beginRun (beginRun s) = beginRun s := rfl

/-- Settles O13: START is `beginRun`, which changes nothing after a reset or after itself. -/
theorem startResult : Obligations.StartResult := by
  refine ⟨rfl, fun s => exec_start s, fun s => ?_, fun s t h => ?_⟩
  · rw [exec_start, beginRun_resetBlock]
  · obtain rfl : beginRun s = t := Host.Outcome.next.inj h
    rw [exec_start, beginRun_beginRun]

/-! ### END -/

/-- END in RUN mode drops an unfinished tile, then sets DONE (R104). -/
theorem exec_endRun_of_running {s : State} (hs : s.stopped = false) :
    exec .endRun s = .next (setDone (dropPartialTile s)) := by
  simp [exec, execEndRun, hs]

/-- Rows in the buffer are dropped and counted (R104, R143). -/
theorem dropPartialTile_of_rows {s : State} (h : s.rowcnt ≠ 0#3) :
    dropPartialTile s = emptyBuffer { s with status := { s.status with ptd := true, ptdrows := s.rowcnt } } :=
  if_pos h

theorem dropPartialTile_of_empty {s : State} (h : s.rowcnt = 0#3) : dropPartialTile s = s :=
  if_neg (not_not_intro h)

/-- Settles O14: RUN mode drops a partial tile and sets DONE; STOPPED mode drops END itself. -/
theorem endResult : Obligations.EndResult := by
  refine ⟨rfl, fun s hs hrows => ?_, fun s hs hempty => ?_, fun s hs => ?_⟩
  · rw [exec_endRun_of_running hs, dropPartialTile_of_rows hrows]
    rfl
  · rw [exec_endRun_of_running hs, dropPartialTile_of_empty hempty]
    rfl
  · exact exec_of_stopped hs (by simp) (by simp) (by simp)

end Sys2Proof.Machine
end

section
/-! The formatter: numerals, justification, the two lines of a tile, and the line sequence of a run
(44_host_formatter.md R116 to R121). -/

namespace Sys2Proof.Machine

/-! ### Numerals -/

/-- The characters '0' to '9' in the order of the digits they stand for (R116). -/
theorem digitChar_isDigit {d : Nat} (h : d < 10) : '0' ≤ digitChar d ∧ digitChar d ≤ '9' := by
  interval_cases d <;> decide

theorem digitChar_value {d : Nat} (h : d < 10) : (digitChar d).toNat - 48 = d := by
  interval_cases d <;> rfl

theorem digitChar_ne_zero {d : Nat} (h : d < 10) (hd : d ≠ 0) : digitChar d ≠ '0' := by
  intro he
  have hvalue := digitChar_value h
  rw [he] at hvalue
  exact hd hvalue.symm

/-- Settles O53: one, two or three digits by the size of v; the leading one is zero only in "0" itself. -/
theorem decimalNumeral : Obligations.DecimalNumeral := by
  intro v
  have hv : v.toNat < 256 := v.isLt
  have hones : v.toNat % 10 < 10 := Nat.mod_lt _ (by decide)
  have htens : v.toNat / 10 % 10 < 10 := Nat.mod_lt _ (by decide)
  unfold dec
  split
  next hsmall =>
    refine ⟨by simp, by simpa using digitChar_isDigit hsmall, by simpa using digitChar_value hsmall, ?_, by simp⟩
    by_cases hzero : v.toNat = 0
    · left
      rw [hzero]
      rfl
    · right
      simpa using digitChar_ne_zero hsmall hzero
  next hlarge =>
    split
    next hmiddle =>
      have hlead : v.toNat / 10 < 10 := by omega
      refine ⟨by simp, by simpa using ⟨digitChar_isDigit hlead, digitChar_isDigit hones⟩, ?_, ?_, by simp⟩
      · simp only [List.foldl_cons, List.foldl_nil, digitChar_value hlead, digitChar_value hones]
        omega
      · right
        simpa using digitChar_ne_zero hlead (by omega)
    next hhundred =>
      have hlead : v.toNat / 100 < 10 := by omega
      refine ⟨by simp, ?_, ?_, ?_, by simp⟩
      · simpa using ⟨digitChar_isDigit hlead, digitChar_isDigit htens, digitChar_isDigit hones⟩
      · simp only [List.foldl_cons, List.foldl_nil, digitChar_value hlead, digitChar_value htens,
          digitChar_value hones]
        omega
      · right
        simpa using digitChar_ne_zero hlead (by omega)

/-! ### Justification -/

@[simp] theorem ljust_length (t : Text) (n : Nat) : (ljust t n).length = max n t.length := by
  simp only [ljust, List.length_append, List.length_replicate]
  omega

@[simp] theorem ljust_take (t : Text) (n : Nat) : (ljust t n).take t.length = t :=
  List.take_left

@[simp] theorem ljust_drop (t : Text) (n : Nat) :
    (ljust t n).drop t.length = List.replicate (n - t.length) ' ' :=
  List.drop_left

/-- A text as long as the column or longer is not touched (R117). -/
theorem ljust_of_le {t : Text} {n : Nat} (h : n ≤ t.length) : ljust t n = t := by
  simp [ljust, Nat.sub_eq_zero_of_le h]

/-- The padding, place by place. -/
theorem ljust_getElem?_of_padding {t : Text} {n j : Nat} (ht : t.length ≤ j) (hj : j < n) :
    (ljust t n)[j]? = some ' ' := by
  rw [ljust, List.getElem?_append_right ht]
  exact List.getElem?_replicate_of_lt (by omega)

/-- Settles O54: the text, then spaces only. -/
theorem leftJustify : Obligations.LeftJustify := by
  refine fun t n => ⟨ljust_take t n, ljust_length t n, fun c hc => ?_, ljust_of_le⟩
  rw [ljust_drop] at hc
  exact List.eq_of_mem_replicate hc

/-! ### The data line -/

theorem toList_eight {α : Type} (b : Vector α 8) :
    b.toList = [b[0], b[1], b[2], b[3], b[4], b[5], b[6], b[7]] := by
  apply List.ext_getElem
  · simp
  · intro i hi _
    have : i < 8 := by simpa using hi
    interval_cases i <;> simp

/-- The token and the label are cut nowhere: the rest of the line begins at the label column, or right behind an
over-long label (R119, R129). -/
theorem dataLine_eq (p : FormatParams) (label : Text) (b : Vector Byte 8) :
    dataLine p label b = ljust (Config.labelToken ++ label) p.colw
      ++ (p.keyword ++ (Config.keywordGap ++ joinCommas (b.toList.map dec))) := by
  simp [dataLine]

theorem label_length (label : Text) : (Config.labelToken ++ label).length = 3 + label.length := by
  rw [List.length_append]
  rfl

/-- Settles O55: the justified label has length max(COLW, 3 + len(label)), so all three parts are read off it. -/
theorem dataLineLayout : Obligations.DataLineLayout := by
  intro p label b
  have hlength := ljust_length (Config.labelToken ++ label) p.colw
  rw [label_length] at hlength
  rw [dataLine_eq]
  refine ⟨?_, ?_, fun j hlabel hcol => ?_⟩
  · rw [List.take_append_of_le_length (by omega), ← label_length, ljust_take]
    rfl
  · rw [← hlength, List.drop_left, toList_eight]
    simp [joinCommas, Config.keywordGap]
  · rw [List.getElem?_append_left (by omega)]
    exact ljust_getElem?_of_padding (by rwa [label_length]) hcol

/-! ### The lines of a run -/

/-- A run's lines begin with the comment line and the data line of its first record (R120, R121). -/
theorem runLines_cons_eq_some_iff {p : FormatParams} {labels : List Text} {r : Tile} {rest : List Tile}
    {ls : List Text} :
    runLines p labels (r :: rest) = some ls
      ↔ ∃ label more, labels[r.idx.toNat]? = some label ∧ runLines p labels rest = some more
          ∧ ls = commentLine label :: dataLine p label r.b :: more := by
  rw [runLines, recordLines]
  cases labels[r.idx.toNat]? <;> cases runLines p labels rest <;> simp [eq_comm]

theorem runLines_length {p : FormatParams} {labels : List Text} {records : List Tile} {ls : List Text}
    (h : runLines p labels records = some ls) : ls.length = 2 * records.length := by
  induction records generalizing ls with
  | nil =>
    cases h
    rfl
  | cons r rest ih =>
    obtain ⟨label, more, -, hmore, rfl⟩ := runLines_cons_eq_some_iff.1 h
    simp only [List.length_cons, ih hmore]
    omega

/-- Record i's two lines stand at 2i and 2i + 1: each record before it put two lines in front. -/
theorem runLines_getElem? {p : FormatParams} {labels : List Text} {records : List Tile} {ls : List Text}
    (h : runLines p labels records = some ls) {i : Nat} {r : Tile} (hr : records[i]? = some r) :
    ∃ label, labels[r.idx.toNat]? = some label ∧ ls[2 * i]? = some (commentLine label)
      ∧ ls[2 * i + 1]? = some (dataLine p label r.b) := by
  induction records generalizing ls i with
  | nil => simp at hr
  | cons first rest ih =>
    obtain ⟨label, more, hlabel, hmore, rfl⟩ := runLines_cons_eq_some_iff.1 h
    cases i with
    | zero =>
      cases hr
      exact ⟨label, hlabel, rfl, rfl⟩
    | succ i => exact ih hmore hr

theorem runLines_isSome {p : FormatParams} {labels : List Text} {records : List Tile}
    (h : ∀ r ∈ records, r.idx.toNat < labels.length) : ∃ ls, runLines p labels records = some ls := by
  induction records with
  | nil => exact ⟨[], rfl⟩
  | cons r rest ih =>
    obtain ⟨hr, hrest⟩ := List.forall_mem_cons.1 h
    obtain ⟨more, hmore⟩ := ih hrest
    exact ⟨_, runLines_cons_eq_some_iff.2 ⟨_, more, List.getElem?_eq_getElem hr, hmore, rfl⟩⟩

/-- Settles O56, by induction on the records. -/
theorem lineSequenceOfRun : Obligations.LineSequenceOfRun := fun _ _ _ =>
  ⟨fun _ h => ⟨runLines_length h, fun _ _ => runLines_getElem? h⟩, runLines_isSome⟩

end Sys2Proof.Machine
end

section
/-! The run of `encode`: words issued one at a time (R43, R164), the rows of a scan, and the tile that finds no label
(30_encoding.md R61 to R64, 42_pack.md R89, 44_host_formatter.md R122, R123). -/

namespace Sys2Proof.Machine

/-! ### Words issued one at a time -/

/-- A word presented is taken by the next step, whatever waits behind it (R42). -/
theorem step_present (w : Word) (s : State) : step (present w s) = acceptWord w s :=
  step_of_word rfl

theorem issue_singleton (w : Word) (s : State) : issue [w] s = acceptWord w s := by
  rw [issue, step_present]
  cases acceptWord w s <;> rfl

theorem issue_cons_of_next {w : Word} {s t : State} (h : acceptWord w s = .next t) (ws : List Word) :
    issue (w :: ws) s = issue ws t := by
  rw [issue, step_present, h]

theorem issue_append_of_next {before : List Word} {s t : State} (h : issue before s = .next t) (ws : List Word) :
    issue (before ++ ws) s = issue ws t := by
  induction before generalizing s with
  | nil =>
    cases h
    rfl
  | cons w rest ih =>
    rw [issue] at h
    cases hw : step (present w s) with
    | next u =>
      rw [hw] at h
      rw [List.cons_append, issue_cons_of_next ((step_present w s).symm.trans hw)]
      exact ih h
    | fault f =>
      rw [hw] at h
      cases h
    | refused r =>
      rw [hw] at h
      cases h

/-- Words that are all dropped change nothing. -/
theorem issue_of_dropped {ws : List Word} {s : State} (h : ∀ w ∈ ws, acceptWord w s = .next s) :
    issue ws s = .next s := by
  induction ws with
  | nil => rfl
  | cons w rest ih =>
    obtain ⟨hw, hrest⟩ := List.forall_mem_cons.1 h
    rw [issue_cons_of_next hw, ih hrest]

/-! ### The words of ENCODE, accepted -/

theorem decode_encode_setInk (rgb : Pixel) : decode (encode (.setInk rgb)) = .ok (.setInk rgb) := by
  have hmatch : encode (.setInk rgb) &&& 0xFF000000#32 = 0x01000000#32 := (Laws.TableRow.setInk rgb).1
  have hcolour : colourField (encode (.setInk rgb)) = rgb := BitVec.extractLsb'_append_eq_right
  rw [decode, if_pos hmatch, hcolour]

theorem decode_encode_setLim (n : BitVec 16) : decode (encode (.setLim n)) = .ok (.setLim n) := by
  have hmatch : encode (.setLim n) &&& 0xFFFF0000#32 = 0x02000000#32 := (Laws.TableRow.setLim n).1
  have hopcode : opcodeField (encode (.setLim n)) = 0x02#8 := BitVec.extractLsb'_append_eq_left
  have hnot : encode (.setLim n) &&& 0xFF000000#32 ≠ 0x01000000#32 := by
    intro h
    have hbyte := opcodeField_of_match h
    rw [hopcode] at hbyte
    exact absurd hbyte (by decide)
  have hcount : numberField (encode (.setLim n)) = n := by
    have hn := n.isLt
    apply BitVec.eq_of_toNat_eq
    rw [numberField, BitVec.extractLsb'_toNat, encode_setLim_toNat, Nat.shiftRight_zero]
    omega
  rw [decode, if_neg hnot, if_pos hmatch, hcount]

theorem acceptWord_setInk (rgb : Pixel) (s : State) :
    acceptWord (encode (.setInk rgb)) s = .next { s with ink := rgb } :=
  acceptWord_of_command s (decode_encode_setInk rgb)

theorem acceptWord_setLim (n : BitVec 16) (s : State) :
    acceptWord (encode (.setLim n)) s = .next { s with limit := n } :=
  acceptWord_of_command s (decode_encode_setLim n)

theorem acceptWord_start (s : State) : acceptWord (encode .start) s = .next (beginRun s) :=
  acceptWord_of_command (i := .start) s (by decide)

theorem acceptWord_endRun (s : State) : acceptWord (encode .endRun) s = exec .endRun s :=
  acceptWord_of_command s (by decide)

theorem acceptWord_ldRow (s : State) : acceptWord (encode .ldRow) s = exec .ldRow s :=
  acceptWord_of_command s (by decide)

theorem acceptWord_pack (s : State) : acceptWord (encode .pack) s = exec .pack s :=
  acceptWord_of_command s (by decide)

/-- The words of a scan after its START, in STOPPED mode: rows and END are dropped (R142). -/
theorem issue_scanRest_of_stopped {s : State} (hs : s.stopped = true) (h : Nat) :
    issue ((List.replicate h rowWords).flatten ++ [encode .endRun]) s = .next s := by
  refine issue_of_dropped fun w hw => ?_
  have hcommand : w = encode .ldRow ∨ w = encode .pack ∨ w = encode .endRun := by
    rcases List.mem_append.1 hw with hrow | hend
    · obtain ⟨row, hrow, hw⟩ := List.mem_flatten.1 hrow
      obtain rfl := List.eq_of_mem_replicate hrow
      simp only [rowWords, List.mem_cons, List.not_mem_nil, or_false] at hw
      exact hw.imp_right .inl
    · exact .inr (.inr (List.mem_singleton.1 hend))
  rcases hcommand with rfl | rfl | rfl
  · rw [acceptWord_ldRow]
    exact exec_of_stopped hs (by simp) (by simp) (by simp)
  · rw [acceptWord_pack]
    exact exec_of_stopped hs (by simp) (by simp) (by simp)
  · rw [acceptWord_endRun]
    exact exec_of_stopped hs (by simp) (by simp) (by simp)

/-- ENCODE sets the two registers and begins a run; its rows and its END follow (R63, R64). -/
theorem issue_encodeWords (ink : Pixel) (n : BitVec 16) (h : Nat) (s : State) :
    issue (encodeWords ink n h) s
      = issue ((List.replicate h rowWords).flatten ++ [encode .endRun])
          (beginRun { s with ink := ink, limit := n }) := by
  rw [encodeWords, issue_cons_of_next (acceptWord_setInk ink s), issue_cons_of_next (acceptWord_setLim n _), scanWords,
    List.cons_append, issue_cons_of_next (acceptWord_start _)]

/-! ### One row of a scan -/

/-- Each cell of an admitted row is read as `gridRow` has it (R46). -/
theorem gridRead_eq_gridRow {g : Grid} {y : BitVec 19} (hw : 8 ≤ g.width) (hy : y.toNat < g.height) (x : Fin 8) :
    gridRead g x y = some (gridRow g y.toNat)[x] := by
  have hadmits : g.admits x.val y.toNat = true := by
    simp only [Grid.admits, Bool.and_eq_true, decide_eq_true_eq]
    exact ⟨Nat.lt_of_lt_of_le x.isLt hw, hy⟩
  rw [gridRead, Grid.read, if_pos hadmits]
  simp [gridRow]

/-- LDROW ; PACK on an admitted row appends the byte of that grid row and consumes the lanes (R61, R84). -/
theorem issue_rowWords {s : State} (hs : s.stopped = false) (hw : 8 ≤ s.grid.width)
    (hy : (scanPos s).toNat < s.grid.height) :
    issue rowWords s = acceptByte (pack8 s.ink (gridRow s.grid (scanPos s).toNat)) (invalidateLanes s) := by
  have hread := gridRead_eq_gridRow hw hy
  have hfetch := fetchRow_eq_ok (g := s.grid) (y := scanPos s) fun x => by simp [hread x]
  have hlanes : allSome (Vector.ofFn fun x : Fin 8 => gridRead s.grid x (scanPos s))
      = some (gridRow s.grid (scanPos s).toNat) :=
    (allSome_eq_some_iff _ _).2 fun x => by simpa using hread x
  have hload : acceptWord (encode .ldRow) s
      = .next (writeLanes (Vector.ofFn fun x => gridRead s.grid x (scanPos s)) s) := by
    rw [acceptWord_ldRow, exec_ldRow_of_running hs, loadRow_of_ok hfetch]
  rw [rowWords, issue_cons_of_next hload, issue_singleton, acceptWord_pack]
  rcases execPack_cases (writeLanes (Vector.ofFn fun x => gridRead s.grid x (scanPos s)) s)
    with ⟨hstop, -⟩ | ⟨-, hpxv, -⟩ | ⟨-, -, p, hp, heq⟩ | ⟨-, -, hp, -⟩
  · exact absurd (hstop.symm.trans hs) (by decide)
  · exact absurd rfl hpxv
  · obtain rfl : _ = p := Option.some.inj (hlanes.symm.trans hp)
    exact heq
  · exact absurd (hlanes.symm.trans hp) (by simp)

/-! ### A scan on its way -/

/-- Y as a number (R13). -/
theorem scanPos_toNat (s : State) : (scanPos s).toNat = 8 * s.tileidx.toNat + s.rowcnt.toNat := by
  rw [scanPos, append_toNat]
  omega

/-- What the run begun in `s₀` has reached after `y` rows, no fault recorded (R89): the buffer holds the rows of the
tile begun, OUT has grown by the tiles completed. -/
structure Scanned (s₀ : State) (y : Nat) (s : State) : Prop where
  grid : s.grid = s₀.grid
  ink : s.ink = s₀.ink
  limit : s.limit = s₀.limit
  status : s.status = Status.clear
  position : (scanPos s).toNat = y
  buffered : ∀ k : Fin 8, k.val < s.rowcnt.toNat →
    s.tbuf[k] = some (pack8 s₀.ink (gridRow s₀.grid (8 * s.tileidx.toNat + k.val)))
  emitted : s.out = s₀.out ++ (List.range s.tileidx.toNat).map (gridTile s₀.ink s₀.grid)

/-- `s` with the byte of its next row appended and the lanes consumed, before the counters move (R84, R85). -/
def withNextRow (s : State) : State :=
  appendByte (pack8 s.ink (gridRow s.grid (scanPos s).toNat)) (invalidateLanes s)

theorem scanned_beginRun (s : State) : Scanned s 0 (beginRun s) where
  grid := rfl
  ink := rfl
  limit := rfl
  status := rfl
  position := by simp
  buffered := fun k hk => absurd hk (by simp)
  emitted := by simp

section
variable {s₀ s : State} {y : Nat}

theorem Scanned.running (h : Scanned s₀ y s) : s.stopped = false :=
  (running_iff s).2 (by simp [h.status, Status.clear])

theorem Scanned.position_eq (h : Scanned s₀ y s) : y = 8 * s.tileidx.toNat + s.rowcnt.toNat :=
  h.position.symm.trans (scanPos_toNat s)

theorem Scanned.issue_rowWords (h : Scanned s₀ y s) (hw : 8 ≤ s₀.grid.width) (hy : y < s₀.grid.height) :
    issue rowWords s = acceptByte (pack8 s.ink (gridRow s.grid (scanPos s).toNat)) (invalidateLanes s) := by
  refine Machine.issue_rowWords h.running ?_ ?_
  · rwa [h.grid]
  · rwa [h.grid, h.position]

/-- With the next row's byte in place, the buffer holds one row more of the same tile. -/
theorem Scanned.buffered_withNextRow (h : Scanned s₀ y s) (k : Fin 8) (hk : k.val ≤ s.rowcnt.toNat) :
    (withNextRow s).tbuf[k] = some (pack8 s₀.ink (gridRow s₀.grid (8 * s.tileidx.toNat + k.val))) := by
  have hset : (withNextRow s).tbuf
      = s.tbuf.set (rowIndex s.rowcnt) (some (pack8 s.ink (gridRow s.grid (scanPos s).toNat))) := rfl
  rw [hset]
  rcases Nat.lt_or_eq_of_le hk with hold | hnew
  · rw [← h.buffered k hold]
    exact Vector.getElem_set_ne _ _ (by simp; omega)
  · obtain rfl : rowIndex s.rowcnt = k := Fin.ext hnew.symm
    simp [h.ink, h.grid, scanPos_toNat]

/-- A row that does not complete a tile (R85). -/
theorem Scanned.row_append (h : Scanned s₀ y s) (hr : s.rowcnt ≠ 7#3) :
    Scanned s₀ (y + 1) { withNextRow s with rowcnt := s.rowcnt + 1#3 } := by
  have hcount : (s.rowcnt + 1#3).toNat = s.rowcnt.toNat + 1 := by bv_omega
  refine ⟨h.grid, h.ink, h.limit, h.status, ?_, fun k hk => ?_, h.emitted⟩
  · rw [scanPos_toNat, h.position_eq]
    exact congrArg (8 * s.tileidx.toNat + ·) hcount
  · have hk' : k.val < (s.rowcnt + 1#3).toNat := hk
    exact h.buffered_withNextRow k (by omega)

/-- A row that completes a tile with a label: the record is the one of the grid (R86). -/
theorem Scanned.row_emit (h : Scanned s₀ y s) (hr : s.rowcnt = 7#3) (hl : s.tileidx < s.limit) {bytes : Vector Byte 8}
    (hb : allSome (withNextRow s).tbuf = some bytes) : Scanned s₀ (y + 1) (emitTile bytes (withNextRow s)) := by
  have hrows : s.rowcnt.toNat = 7 := by rw [hr]; rfl
  have hindex : (s.tileidx + 1#16).toNat = s.tileidx.toNat + 1 := by bv_omega
  have htile : ({ idx := s.tileidx, b := bytes } : Tile) = gridTile s₀.ink s₀.grid s.tileidx.toNat := by
    have hbytes : ∀ k : Fin 8, bytes[k] = pack8 s₀.ink (gridRow s₀.grid (8 * s.tileidx.toNat + k.val)) := fun k =>
      Option.some.inj (((allSome_eq_some_iff _ _).1 hb k).symm.trans (h.buffered_withNextRow k (by omega)))
    simp only [gridTile, BitVec.ofNat_toNat, BitVec.setWidth_eq, Tile.mk.injEq, true_and]
    ext1 i hi
    rw [Vector.getElem_ofFn]
    exact hbytes ⟨i, hi⟩
  refine ⟨h.grid, h.ink, h.limit, h.status, ?_, fun k hk => absurd hk (by simp), ?_⟩
  · rw [scanPos_toNat, h.position_eq]
    show 8 * (s.tileidx + 1#16).toNat + 0 = _
    omega
  · show s.out ++ [({ idx := s.tileidx, b := bytes } : Tile)] = s₀.out ++ (List.range (s.tileidx + 1#16).toNat).map _
    rw [hindex, List.range_succ, List.map_append, ← List.append_assoc, ← h.emitted, htile]
    rfl

/-- A row before the one that needs label number LIMIT goes on with the scan (R89). -/
theorem Scanned.row (h : Scanned s₀ y s) (hw : 8 ≤ s₀.grid.width) (hy : y < s₀.grid.height)
    (hl : y + 1 < 8 * (s₀.limit.toNat + 1)) : ∃ t, issue rowWords s = .next t ∧ Scanned s₀ (y + 1) t := by
  have hpos := h.position_eq
  have hlimit : s.limit.toNat = s₀.limit.toNat := congrArg BitVec.toNat h.limit
  rw [h.issue_rowWords hw hy]
  rcases acceptByte_cases (pack8 s.ink (gridRow s.grid (scanPos s).toNat)) (invalidateLanes s)
    with ⟨hr, e⟩ | ⟨hr, hout, -⟩ | ⟨hr, hlt, bytes, hb, e⟩ | ⟨hr, -, hb, -⟩
  · exact ⟨_, e, h.row_append hr⟩
  · have hrows : s.rowcnt.toNat = 7 := congrArg BitVec.toNat hr
    have hout' : s.limit.toNat ≤ s.tileidx.toNat := hout
    omega
  · exact ⟨_, e, h.row_emit hr hlt hb⟩
  · have hrows : s.rowcnt.toNat = 7 := congrArg BitVec.toNat hr
    obtain ⟨k, hk⟩ := (allSome_eq_none_iff _).1 hb
    exact absurd (hk.symm.trans (h.buffered_withNextRow k (by omega))) (by simp)

/-- The row that needs label number LIMIT records OutOfLabels (R137). -/
theorem Scanned.row_outOfLabels (h : Scanned s₀ y s) (hw : 8 ≤ s₀.grid.width) (hy : y < s₀.grid.height)
    (hl : y + 1 = 8 * (s₀.limit.toNat + 1)) :
    s.tileidx = s₀.limit ∧ issue rowWords s = .next (outOfLabels (withNextRow s)) := by
  have hpos := h.position_eq
  have hrows : s.rowcnt.toNat = 7 := by omega
  have htile : s.tileidx = s₀.limit := BitVec.eq_of_toNat_eq (by omega)
  refine ⟨htile, ?_⟩
  rw [h.issue_rowWords hw hy]
  have hle : s.limit ≤ s.tileidx := by rw [h.limit, htile]; exact BitVec.le_refl _
  rcases acceptByte_cases (pack8 s.ink (gridRow s.grid (scanPos s).toNat)) (invalidateLanes s)
    with ⟨hr, -⟩ | ⟨-, -, e⟩ | ⟨-, hlt, -⟩ | ⟨-, hlt, -⟩
  · exact absurd (BitVec.eq_of_toNat_eq hrows) hr
  · exact e
  · exact absurd hlt (BitVec.not_lt.2 hle)
  · exact absurd hlt (BitVec.not_lt.2 hle)

/-- Any number of rows before the one that needs label number LIMIT, by induction on how many. -/
theorem Scanned.rows (h : Scanned s₀ y s) (hw : 8 ≤ s₀.grid.width) (m : Nat) (hy : y + m ≤ s₀.grid.height)
    (hl : y + m < 8 * (s₀.limit.toNat + 1)) :
    ∃ t, issue (List.replicate m rowWords).flatten s = .next t ∧ Scanned s₀ (y + m) t := by
  induction m generalizing s y with
  | zero => exact ⟨s, rfl, h⟩
  | succ m ih =>
    obtain ⟨u, hu, hscan⟩ := h.row hw (by omega) (by omega)
    obtain ⟨t, ht, hlast⟩ := ih hscan (by omega) (by omega)
    refine ⟨t, ?_, by rwa [Nat.add_right_comm, Nat.add_assoc] at hlast⟩
    rw [List.replicate_succ, List.flatten_cons, issue_append_of_next hu, ht]

end

/-! ### A grid with more tiles than labels -/

/-- R89 (b): the tile number LIMIT finds no label, and everything after it is dropped. -/
theorem issue_encodeWords_outOfLabels (ink : Pixel) (n : BitVec 16) (h : Nat) (s : State) (hw : 8 ≤ s.grid.width)
    (hh : h ≤ s.grid.height) (hn : n.toNat < h / 8) :
    ∃ u, Scanned { s with ink := ink, limit := n } (8 * n.toNat + 7) u ∧ u.tileidx = n
      ∧ issue (encodeWords ink n h) s = .next (outOfLabels (withNextRow u)) := by
  have hstart := scanned_beginRun { s with ink := ink, limit := n }
  obtain ⟨u, hu, hscan⟩ := hstart.rows hw (8 * n.toNat + 7) (by show _ ≤ s.grid.height; omega)
    (by show _ < 8 * (n.toNat + 1); omega)
  rw [Nat.zero_add] at hscan
  obtain ⟨htile, hlast⟩ := hscan.row_outOfLabels hw (by show _ < s.grid.height; omega) rfl
  refine ⟨u, hscan, htile, ?_⟩
  have hsplit : List.replicate h rowWords
      = List.replicate (8 * n.toNat + 7) rowWords ++ rowWords :: List.replicate (h - (8 * n.toNat + 8)) rowWords := by
    rw [← List.replicate_succ, List.replicate_append_replicate]
    congr 1
    omega
  rw [issue_encodeWords, hsplit, List.flatten_append, List.flatten_cons, List.append_assoc, issue_append_of_next hu,
    List.append_assoc, issue_append_of_next hlast]
  exact issue_scanRest_of_stopped (stopped_outOfLabels _) _

/-- Where OutOfLabels is recorded the host looks at FINFO alone (R122). -/
@[simp] theorem encodeResult_outOfLabels (p : FormatParams) (labels : List Text) (before : Nat) (s : State) :
    encodeResult p labels before (outOfLabels s) = .outOfLabels (outOfLabelsInfo s.tileidx) :=
  if_pos ⟨rfl, rfl⟩

/-- The host reports the number of its labels as the tile that found none (R122, R124). -/
theorem hostEncode_outOfLabels (p : FormatParams) (g : Grid) (ink : Pixel) (labels : List Text) (s : State)
    (hlabels : labels.length ≤ 65535) (htiles : labels.length < g.height / 8) (hw : 8 ≤ g.width) :
    (hostEncode p g ink labels s).1 = .outOfLabels (BitVec.ofNat 32 labels.length) := by
  have hcount : (BitVec.ofNat 16 labels.length).toNat = labels.length := Nat.mod_eq_of_lt (by omega)
  obtain ⟨u, -, htile, hissue⟩ := issue_encodeWords_outOfLabels ink (BitVec.ofNat 16 labels.length) g.height
    { s with grid := g } hw (Nat.le_refl _) (by rwa [hcount])
  have hinfo : outOfLabelsInfo u.tileidx = BitVec.ofNat 32 labels.length := by
    apply BitVec.eq_of_toNat_eq
    rw [htile, outOfLabelsInfo, BitVec.toNat_setWidth, hcount, BitVec.toNat_ofNat]
  rw [hostEncode, if_neg (by omega), hissue, ← hinfo]
  exact encodeResult_outOfLabels p labels s.out.length (withNextRow u)

/-- Settles O57: a longer list is refused as the call begins; otherwise the grid has more tiles than labels. -/
theorem tooManyLabelsRefused : Obligations.TooManyLabelsRefused := by
  refine fun p g ink labels s => ⟨fun hmany => ?_, fun hlabels htiles hw => ?_⟩
  · rw [hostEncode, if_pos hmany]
  · exact hostEncode_outOfLabels p g ink labels s hlabels (Nat.lt_of_le_of_lt hlabels htiles) hw

end Sys2Proof.Machine
end

section
/-! Faults and the two modes: what each fault leaves, which word raises it, what STOPPED mode keeps, and what enters
either mode (60_exceptions.md R135 to R149). -/

namespace Sys2Proof.Machine

/-! ### GridRange -/

/-- In a rectangular grid column 7 alone decides whether a row is admitted (R32, R38). -/
theorem gridRead_seven_eq_none_iff (g : Grid) (y : BitVec 19) :
    gridRead g 7 y = none ↔ ¬(8 ≤ g.width ∧ y.toNat < g.height) := by
  rw [← Option.not_isSome_iff_eq_none, gridRead_isSome, Bool.and_eq_true, decide_eq_true_eq, decide_eq_true_eq]
  rfl

/-- Column 7 is read first, so it is the refused one (R138). -/
theorem fetchRow_of_notAdmitted {g : Grid} {y : BitVec 19} (h : ¬(8 ≤ g.width ∧ y.toNat < g.height)) :
    fetchRow g y = .error 7 :=
  fetchRow_eq_error ((gridRead_seven_eq_none_iff g y).2 h) fun c hc => absurd hc (Fin.le_last c).not_gt

/-- GridRange's information holds Y, above the column, below ten zero bits (R21, R138). -/
theorem gridRangeInfo_fields (y : BitVec 19) (x : Fin 8) :
    (gridRangeInfo y x).extractLsb' 3 19 = y ∧ (gridRangeInfo y x).extractLsb' 0 3 = BitVec.ofNat 3 x.val
      ∧ (gridRangeInfo y x).extractLsb' 22 10 = 0#10 := by
  have hx := x.isLt
  have hy := y.isLt
  refine ⟨?_, ?_, ?_⟩ <;> apply BitVec.eq_of_toNat_eq <;>
    simp only [BitVec.extractLsb'_toNat, gridRangeInfo_toNat, BitVec.toNat_ofNat, Nat.shiftRight_eq_div_pow] <;> omega

/-- Settles O19: the fetch refuses column 7, and the raised information is read field by field. -/
theorem gridRangeFault : Obligations.GridRangeFault := by
  intro s hs hrow
  obtain ⟨hscan, hcolumn, hrest⟩ := gridRangeInfo_fields (scanPos s) 7
  refine ⟨raise .gridRange (gridRangeInfo (scanPos s) 7) s, ?_, rfl, hscan, hcolumn, hrest⟩
  rw [exec_ldRow_of_running hs, loadRow_of_error (fetchRow_of_notAdmitted hrow)]

/-! ### OutOfLabels -/

/-- With every lane holding a value PACK consumes the row and appends its byte (R84, R87). -/
theorem exec_pack_of_lanes {s : State} {p : Vector Pixel 8} (hs : s.stopped = false) (hv : s.pxv = 0xFF#8)
    (hp : ∀ x : Fin 8, s.px[x] = some p[x]) :
    exec .pack s = acceptByte (pack8 s.ink p) (invalidateLanes s) := by
  have hlanes : allSome s.px = some p := (allSome_eq_some_iff s.px p).2 hp
  simp [exec, execPack, packRow, hs, hv, hlanes]

/-- At a tile boundary with no label left the finalize drops the tile (R86). -/
theorem acceptByte_of_outOfLabels {s : State} (b : Byte) (hr : s.rowcnt = 7#3) (hl : s.limit ≤ s.tileidx) :
    acceptByte b s = .next (outOfLabels (appendByte b s)) := by
  simp [acceptByte, finalize, hr, hl]

/-- The run has emitted TILEIDX records (R27 (viii)). -/
theorem out_length_of_runRecords {before : List Tile} {s : State} (h : runRecords before s) :
    s.out.length = before.length + s.tileidx.toNat := by
  obtain ⟨records, hout, hindices⟩ := h
  have hcount : records.length = s.tileidx.toNat := by simpa using congrArg List.length hindices
  rw [hout, List.length_append, hcount]

/-- Settles O28: the lanes are consumed, then the finalize finds no label. -/
theorem packOutOfLabels : Obligations.PackOutOfLabels := by
  intro s p hs hv hp hr hl
  refine ⟨?_, fun _ => out_length_of_runRecords⟩
  rw [exec_pack_of_lanes hs hv hp, acceptByte_of_outOfLabels (s := invalidateLanes s) _ hr hl]
  rfl

/-! ### LaneUndefined and IllegalCommand -/

/-- Settles O25: the lane check stops PACK before anything else is read. -/
theorem packLaneUndefined : Obligations.PackLaneUndefined := fun _ hs hv =>
  exec_pack_of_laneUndefined hs hv

/-- Settles O9: an illegal word is presented, and the mode decides whether it is recorded. -/
theorem illegalCommandFault : Obligations.IllegalCommandFault := by
  intro s w hillegal
  rw [step_present, acceptWord_of_illegal s hillegal]
  refine ⟨fun hfault hdone => ?_, fun hmode => ?_⟩
  · rw [illegalCommand_of_running w ((running_iff s).2 ⟨hfault, hdone⟩), raise]
  · rw [illegalCommand_of_stopped w ((stopped_iff s).2 hmode)]

/-! ### Exactly four faults -/

/-- Settles O32: of the next states a word can leave, only the four recorded faults have FAULT set where it was 0. -/
theorem faultsAndTheirCauses : Obligations.FaultsAndTheirCauses := by
  intro s t w hfault h hraised
  rw [step_present] at h
  have hquiet : ∀ {p : Prop}, t.status.fault = s.status.fault → p := fun hkept =>
    absurd (hraised.symm.trans (hkept.trans hfault)) (by decide)
  rcases acceptWord_next h with ⟨-, rfl, -⟩ | ⟨rgb, -, rfl⟩ | ⟨n, -, rfl⟩ | ⟨-, rfl⟩ | ⟨hs, hrun⟩
  · exact hquiet rfl -- dropped
  · exact hquiet rfl -- SETINK
  · exact hquiet rfl -- SETLIM
  · exact hquiet hfault.symm -- START
  · refine ⟨((running_iff s).1 hs).2, ?_⟩
    rcases hrun with ⟨-, -, rfl⟩ | ⟨-, -, rfl⟩ | ⟨lane, rgb, -, rfl⟩ | ⟨v, -, -, rfl⟩ | ⟨x, hd, hfetch, rfl⟩
      | ⟨hd, hv, rfl⟩ | ⟨hd, hv, p, -, hpack⟩ | ⟨hillegal, rfl⟩
    · exact hquiet rfl -- END, nothing buffered
    · exact hquiet rfl -- END, rows dropped
    · exact hquiet rfl -- LDPX
    · exact hquiet rfl -- LDROW, the row loaded
    · obtain ⟨hx, hright⟩ := fetchRow_error hfetch
      exact .inr (.inl ⟨hd, rfl, x, hx, fun c hc => Option.isSome_iff_ne_none.1 (hright c hc), rfl⟩)
    · exact .inr (.inr (.inr ⟨hd, hv, rfl, rfl⟩))
    · rcases hpack with ⟨-, rfl⟩ | ⟨hr, hl, rfl⟩ | ⟨-, -, bytes, -, rfl⟩
      · exact hquiet rfl -- the row appended
      · exact .inl ⟨hd, hv, hr, hl, rfl, rfl⟩
      · exact hquiet rfl -- the record emitted
    · exact .inr (.inr (.inl ⟨hillegal, rfl, rfl⟩))

/-! ### STOPPED mode -/

/-- Settles O8: four commands and every illegal word are dropped, the other three do not look at the mode. -/
theorem stoppedModeDrops : Obligations.StoppedModeDrops := by
  intro s hmode
  have hs : s.stopped = true := (stopped_iff s).2 hmode
  refine ⟨fun lane rgb => exec_of_stopped hs (by simp) (by simp) (by simp),
    exec_of_stopped hs (by simp) (by simp) (by simp), exec_of_stopped hs (by simp) (by simp) (by simp),
    exec_of_stopped hs (by simp) (by simp) (by simp), fun w hillegal => ?_, fun _ => rfl, fun _ => rfl, exec_start s⟩
  rw [step_present]
  exact acceptWord_of_stopped hs (fun _ => hillegal _) (fun _ => hillegal _) (hillegal _)

/-- In STOPPED mode a word other than START is dropped or writes INK or LIMIT alone (R142, R149). -/
theorem acceptWord_keeps_record {w : Word} {s t : State} (hs : s.stopped = true) (h : acceptWord w s = .next t)
    (hd : decode w ≠ .ok .start) : t.status = s.status ∧ t.finfo = s.finfo := by
  rcases acceptWord_next h with ⟨-, rfl, -⟩ | ⟨rgb, -, rfl⟩ | ⟨n, -, rfl⟩ | ⟨hstart, -⟩ | ⟨hrun, -⟩
  · exact ⟨rfl, rfl⟩
  · exact ⟨rfl, rfl⟩
  · exact ⟨rfl, rfl⟩
  · exact absurd hstart hd
  · exact absurd (hs.symm.trans hrun) (by decide)

/-- Settles O34: the presented word is taken by the step, and leaves the record. -/
theorem firstFaultIsKept : Obligations.FirstFaultIsKept := fun s _ w hs h hd =>
  acceptWord_keeps_record hs ((step_present w s).symm.trans h) hd

/-- Settles O33: a word other than START keeps STATUS, and with it the mode; START's state is `beginRun`. -/
theorem onlyStartLeavesStopped : Obligations.OnlyStartLeavesStopped := by
  refine ⟨fun s t w hs h ht => ?_, fun s => ?_, stopped_resetBlock⟩
  · by_contra hd
    obtain ⟨hstatus, -⟩ := firstFaultIsKept s t w hs h hd
    have hmode : t.stopped = s.stopped := by rw [State.stopped, hstatus, State.stopped]
    exact absurd (ht.symm.trans (hmode.trans hs)) (by decide)
  · exact ⟨beginRun s, exec_start s, stopped_beginRun s, rfl, rfl, rfl, scanPos_beginRun s,
      fun k => novalueBytes_getElem k.val k.isLt⟩

/-! ### What enters each mode -/

/-- After END the mode is STOPPED: it was already, or DONE is set now (R104, R141). -/
theorem exec_endRun_stops (s : State) : ∃ t, exec .endRun s = .next t ∧ t.stopped = true := by
  cases hs : s.stopped with
  | true => exact ⟨s, exec_of_stopped hs (by simp) (by simp) (by simp), hs⟩
  | false => exact ⟨_, exec_endRun_of_running hs, stopped_setDone _⟩

/-- Settles O10: the mode by STATUS, and each of the four operations that enter a mode. -/
theorem modeIsEnteredAsStated : Obligations.ModeIsEnteredAsStated :=
  ⟨stopped_iff, stopped_resetBlock, fun s => ⟨beginRun s, exec_start s, stopped_beginRun s⟩, exec_endRun_stops,
    stopped_raise⟩

end Sys2Proof.Machine
end

section
/-! Decode and encode as inverses, and the opcode map as masks (30_encoding.md R50 to R58). A row of the map is a range
of the word read as a number; its fields are what is left of the number below the row's mask. -/

namespace Sys2Proof.Machine

/-! ### The rows of the opcode map as numbers -/

/-- A word under a mask of its high bits, as a number. -/
theorem and_highMask_eq_iff (w pattern : Word) (j : Nat) :
    w &&& (BitVec.allOnes 32 <<< j) = pattern ↔ w.toNat / 2 ^ j * 2 ^ j = pattern.toNat := by
  rw [← BitVec.toNat_inj, and_highMask_toNat]

theorem setInk_row_iff (w : Word) : w &&& 0xFF000000#32 = 0x01000000#32 ↔ w.toNat / 2 ^ 24 = 0x01 := by
  refine (and_highMask_eq_iff w 0x01000000#32 24).trans ?_
  simp only [BitVec.toNat_ofNat]
  omega

theorem setLim_row_iff (w : Word) : w &&& 0xFFFF0000#32 = 0x02000000#32 ↔ w.toNat / 2 ^ 16 = 0x0200 := by
  refine (and_highMask_eq_iff w 0x02000000#32 16).trans ?_
  simp only [BitVec.toNat_ofNat]
  omega

theorem ldPx_row_iff (w : Word) : w &&& 0xF8000000#32 = 0x10000000#32 ↔ w.toNat / 2 ^ 27 = 0b00010 := by
  refine (and_highMask_eq_iff w 0x10000000#32 27).trans ?_
  simp only [BitVec.toNat_ofNat]
  omega

/-- The mask of format Z keeps the whole word (R51). -/
theorem fixed_row_iff (w pattern : Word) : w &&& 0xFFFFFFFF#32 = pattern ↔ w = pattern :=
  iff_of_eq (congrArg (· = pattern) (BitVec.and_allOnes (x := w)))

/-! ### A command's word, by its row and its fields -/

theorem encode_setInk_eq_iff (w : Word) (rgb : Pixel) :
    encode (.setInk rgb) = w ↔ w &&& 0xFF000000#32 = 0x01000000#32 ∧ rgb = colourField w := by
  have hrgb := rgb.isLt
  rw [setInk_row_iff, colourField, ← BitVec.toNat_inj, ← BitVec.toNat_inj, encode_setInk_toNat,
    BitVec.extractLsb'_toNat]
  omega

theorem encode_setLim_eq_iff (w : Word) (n : BitVec 16) :
    encode (.setLim n) = w ↔ w &&& 0xFFFF0000#32 = 0x02000000#32 ∧ n = numberField w := by
  have hn := n.isLt
  rw [setLim_row_iff, numberField, ← BitVec.toNat_inj, ← BitVec.toNat_inj, encode_setLim_toNat,
    BitVec.extractLsb'_toNat]
  omega

theorem laneField_val (w : Word) : (laneField w).val = w.toNat / 2 ^ 24 % 2 ^ 3 :=
  (BitVec.extractLsb'_toNat 24 3 w).trans (congrArg (· % 2 ^ 3) (Nat.shiftRight_eq_div_pow w.toNat 24))

theorem encode_ldPx_eq_iff (w : Word) (lane : Fin 8) (rgb : Pixel) :
    encode (.ldPx lane rgb) = w
      ↔ w &&& 0xF8000000#32 = 0x10000000#32 ∧ lane = laneField w ∧ rgb = colourField w := by
  have hlane := lane.isLt
  have hrgb := rgb.isLt
  have hcolour : (colourField w).toNat = w.toNat % 2 ^ 24 := BitVec.extractLsb'_toNat 0 24 w
  rw [ldPx_row_iff, Fin.ext_iff, laneField_val, ← BitVec.toNat_inj, ← BitVec.toNat_inj, encode_ldPx_toNat, hcolour]
  omega

/-! ### Decode and encode -/

theorem decode_encode_ldPx (lane : Fin 8) (rgb : Pixel) :
    decode (encode (.ldPx lane rgb)) = .ok (.ldPx lane rgb) := by
  obtain ⟨hrow, hlane, hrgb⟩ := (encode_ldPx_eq_iff _ lane rgb).1 rfl
  have hnumber := (ldPx_row_iff _).1 hrow
  have hfixed : ∀ {pattern : Word}, pattern.toNat / 2 ^ 27 ≠ 0b00010 → encode (.ldPx lane rgb) ≠ pattern :=
    fun hne h => hne (by rw [← h, hnumber])
  have hsetInk : encode (.ldPx lane rgb) &&& 0xFF000000#32 ≠ 0x01000000#32 := by
    rw [Ne, setInk_row_iff]
    omega
  have hsetLim : encode (.ldPx lane rgb) &&& 0xFFFF0000#32 ≠ 0x02000000#32 := by
    rw [Ne, setLim_row_iff]
    omega
  rw [decode, if_neg hsetInk, if_neg hsetLim, if_neg (hfixed (by decide)), if_neg (hfixed (by decide)), if_pos hrow,
    ← hlane, ← hrgb]

/-- Settles O1, command by command. -/
theorem decodeOfEncode : Obligations.DecodeOfEncode := by
  intro i
  cases i with
  | setInk rgb => exact decode_encode_setInk rgb
  | setLim n => exact decode_encode_setLim n
  | start => decide
  | endRun => decide
  | ldPx lane rgb => exact decode_encode_ldPx lane rgb
  | ldRow => decide
  | pack => decide

/-- Settles O2: each line of `decode` that answers a command has found its row, and reads the fields it needs. -/
theorem encodeOfDecode : Obligations.EncodeOfDecode := by
  intro w i h
  unfold decode at h
  split at h
  next hrow =>
    cases h
    exact (encode_setInk_eq_iff w _).2 ⟨hrow, rfl⟩
  next =>
  split at h
  next hrow =>
    cases h
    exact (encode_setLim_eq_iff w _).2 ⟨hrow, rfl⟩
  next =>
  split at h
  next hw =>
    cases h
    exact hw.symm
  next =>
  split at h
  next hw =>
    cases h
    exact hw.symm
  next =>
  split at h
  next hrow =>
    cases h
    exact (encode_ldPx_eq_iff w _ _).2 ⟨hrow, rfl, rfl⟩
  next =>
  split at h
  next hw =>
    cases h
    exact hw.symm
  next =>
  split at h
  next hw =>
    cases h
    exact hw.symm
  next => cases h

theorem decode_eq_ok_iff {w : Word} {i : Instr} : decode w = .ok i ↔ encode i = w :=
  ⟨encodeOfDecode w i, fun h => h ▸ decodeOfEncode i⟩

/-- Settles O5: each word is the one its command encodes to. -/
theorem writtenOutWordsDecode : Obligations.WrittenOutWordsDecode :=
  ⟨decodeOfEncode (.setInk 0x000000#24), decodeOfEncode (.setLim 2#16), decodeOfEncode .start, decodeOfEncode .endRun,
    decodeOfEncode (.ldPx 3 0xFF0000#24), decodeOfEncode .ldRow, decodeOfEncode .pack⟩

/-! ### The opcode map -/

/-- A word in the row of a command is the word of a command of that row (R56). -/
theorem exists_decode_of_row {w : Word} {i : Instr} (h : w &&& maskOf i = patternOf i) :
    ∃ k, decode w = .ok k ∧ maskOf k = maskOf i ∧ patternOf k = patternOf i := by
  have hfixed : maskOf i = 0xFFFFFFFF#32 → encode i = patternOf i → decode w = .ok i := fun hmask hpattern =>
    decode_eq_ok_iff.2 (hpattern.trans ((fixed_row_iff w _).1 (hmask ▸ h)).symm)
  cases i with
  | setInk rgb => exact ⟨.setInk (colourField w), decode_eq_ok_iff.2 ((encode_setInk_eq_iff w _).2 ⟨h, rfl⟩), rfl, rfl⟩
  | setLim n => exact ⟨.setLim (numberField w), decode_eq_ok_iff.2 ((encode_setLim_eq_iff w _).2 ⟨h, rfl⟩), rfl, rfl⟩
  | start => exact ⟨.start, hfixed rfl rfl, rfl, rfl⟩
  | endRun => exact ⟨.endRun, hfixed rfl rfl, rfl, rfl⟩
  | ldPx lane rgb =>
    exact ⟨.ldPx (laneField w) (colourField w), decode_eq_ok_iff.2 ((encode_ldPx_eq_iff w _ _).2 ⟨h, rfl, rfl⟩), rfl,
      rfl⟩
  | ldRow => exact ⟨.ldRow, hfixed rfl rfl, rfl, rfl⟩
  | pack => exact ⟨.pack, hfixed rfl rfl, rfl, rfl⟩

/-- A format without operands: its command's word is the row's match itself (R51). -/
theorem decode_fixed_iff {w : Word} {i : Instr} : decode w = .ok i ↔ w &&& 0xFFFFFFFF#32 = encode i := by
  rw [decode_eq_ok_iff, fixed_row_iff, eq_comm]

/-- Settles O3: decoding to a command is being its word; a word of two rows decodes to one command. -/
theorem decodeIsMaskAndMatch : Obligations.DecodeIsMaskAndMatch := by
  refine ⟨fun w => ⟨fun rgb => ?_, fun n => ?_, decode_fixed_iff, decode_fixed_iff, fun lane rgb => ?_,
    decode_fixed_iff, decode_fixed_iff⟩, fun i j w hi hj => ?_⟩
  · exact decode_eq_ok_iff.trans (encode_setInk_eq_iff w rgb)
  · exact decode_eq_ok_iff.trans (encode_setLim_eq_iff w n)
  · rw [decode_eq_ok_iff, encode_ldPx_eq_iff, Fin.ext_iff]
    rfl
  · obtain ⟨k, hk, hmask, hpattern⟩ := exists_decode_of_row hi
    obtain ⟨l, hl, hmask', hpattern'⟩ := exists_decode_of_row hj
    obtain rfl : k = l := Except.ok.inj (hk.symm.trans hl)
    exact ⟨hmask.symm.trans hmask', hpattern.symm.trans hpattern'⟩

/-! ### The illegal words -/

/-- The legal words are those of the seven rows, as ranges of numbers (R56, R57). -/
theorem exists_decode_iff (w : Word) :
    (∃ i, decode w = .ok i)
      ↔ w.toNat / 2 ^ 24 = 0x01 ∨ w.toNat / 2 ^ 16 = 0x0200 ∨ w.toNat / 2 ^ 27 = 0b00010
        ∨ w.toNat = 0x03000000 ∨ w.toNat = 0x04000000 ∨ w.toNat = 0x20000000 ∨ w.toNat = 0x21000000 := by
  rw [← setInk_row_iff, ← setLim_row_iff, ← ldPx_row_iff]
  constructor
  · rintro ⟨i, h⟩
    have hw := decode_eq_ok_iff.1 h
    cases i with
    | setInk rgb => exact .inl ((encode_setInk_eq_iff w rgb).1 hw).1
    | setLim n => exact .inr (.inl ((encode_setLim_eq_iff w n).1 hw).1)
    | start => exact .inr (.inr (.inr (.inl (hw ▸ rfl))))
    | endRun => exact .inr (.inr (.inr (.inr (.inl (hw ▸ rfl)))))
    | ldPx lane rgb => exact .inr (.inr (.inl ((encode_ldPx_eq_iff w lane rgb).1 hw).1))
    | ldRow => exact .inr (.inr (.inr (.inr (.inr (.inl (hw ▸ rfl))))))
    | pack => exact .inr (.inr (.inr (.inr (.inr (.inr (hw ▸ rfl))))))
  · have hfixed : ∀ i, w.toNat = (encode i).toNat → ∃ i, decode w = .ok i := fun i h =>
      ⟨i, decode_eq_ok_iff.2 (BitVec.eq_of_toNat_eq h.symm)⟩
    rintro (hrow | hrow | hrow | hw | hw | hw | hw)
    · exact ⟨_, decode_eq_ok_iff.2 ((encode_setInk_eq_iff w _).2 ⟨hrow, rfl⟩)⟩
    · exact ⟨_, decode_eq_ok_iff.2 ((encode_setLim_eq_iff w _).2 ⟨hrow, rfl⟩)⟩
    · exact ⟨_, decode_eq_ok_iff.2 ((encode_ldPx_eq_iff w _ _).2 ⟨hrow, rfl, rfl⟩)⟩
    · exact hfixed .start hw
    · exact hfixed .endRun hw
    · exact hfixed .ldRow hw
    · exact hfixed .pack hw

/-- Settles O4: both sides are ranges of the word as a number. -/
theorem illegalWordsAreTheListed : Obligations.IllegalWordsAreTheListed := by
  intro w
  have hw := w.isLt
  rw [← not_exists, exists_decode_iff, Ne, Ne, ← BitVec.toNat_inj, ← BitVec.toNat_inj]
  simp only [BitVec.extractLsb'_toNat, Nat.shiftRight_eq_div_pow, BitVec.toNat_ofNat]
  omega

end Sys2Proof.Machine
end

section
/-! The invariants of the machine: they hold after reset, every step keeps them, and in a state that keeps them every
command word completes (10_state.md R12, R27; 70_reset_and_hazards.md R172). -/

namespace Sys2Proof.Machine

/-! ### The fields of STATUS -/

/-- The cleared STATUS agrees with FINFO = 0 (R25). -/
theorem Status.inv_clear : Status.clear.Inv 0#32 :=
  ⟨by decide, by decide, by decide, by decide, by decide, by decide⟩

/-- In RUN mode nothing is recorded: FAULT and DONE are 0, and every other field follows (R27 (ii), (iii), R136). -/
theorem State.Inv.record_of_running {s : State} (h : s.Inv) (hs : s.stopped = false) :
    s.status = Status.clear ∧ s.finfo = 0#32 := by
  obtain ⟨hfault, hdone⟩ := (running_iff s).1 hs
  obtain ⟨hcode, hrows, -, -, hptd, hinfo⟩ := h.status
  have hnone : s.status.fcode = .noFault := by
    by_contra hne
    rw [hcode.2 hne] at hfault
    cases hfault
  have hwhole : s.status.ptd = false := by
    cases hp : s.status.ptd with
    | false => rfl
    | true => exact absurd ((hptd hp).symm.trans hdone) (by decide)
  have hzero := hrows hwhole
  have hclear : s.status = ⟨s.status.fault, s.status.fcode, s.status.ptd, s.status.ptdrows, s.status.done⟩ := rfl
  exact ⟨by rw [hclear, hfault, hnone, hwhole, hzero, hdone]; rfl, hinfo hnone⟩

/-- A fault is recorded in RUN mode only, where the other fields are clear (R136). -/
theorem Status.inv_fault {code : FCode} (h : code ≠ .noFault) (info : BitVec 32) :
    ({ Status.clear with fault := true, fcode := code } : Status).Inv info :=
  ⟨by simp [h], by simp [Status.clear], by simp [Status.clear], by simp [Status.clear], by simp [Status.clear],
    by simp [h]⟩

/-- END in RUN mode leaves DONE and, where it dropped rows, their number (R104). -/
theorem Status.inv_done {ptd : Bool} {rows : BitVec 3} (h : ptd = true ↔ rows ≠ 0#3) :
    ({ Status.clear with ptd := ptd, ptdrows := rows, done := true } : Status).Inv 0#32 := by
  refine ⟨by simp [Status.clear], fun hp => ?_, h.1, by simp [Status.clear], fun _ => rfl, fun _ => rfl⟩
  by_contra hne
  exact absurd (hp.symm.trans (h.2 hne)) (by decide)

/-! ### The lanes and the buffer -/

/-- Lanes without a value have no valid bit set (R12). -/
theorem lanes_novalue (x : Fin 8) : novalueLanes[x].isSome = (0x00#8).getLsbD x.val := by
  revert x
  decide

/-- PXV = 0xFF has every lane's valid bit set. -/
theorem lanes_allValid (x : Fin 8) : (0xFF#8).getLsbD x.val = true := by
  revert x
  decide

/-- The empty buffer stands at ROWCNT 0 (R27 (i)). -/
theorem buffer_novalue (k : Fin 8) : novalueBytes[k].isSome = decide (k.val < (0#3).toNat) := by
  revert k
  decide

/-- The appended byte stands at ROWCNT (R85). -/
theorem appendByte_tbuf_same (b : Byte) (s : State) : (appendByte b s).tbuf[rowIndex s.rowcnt] = some b := by
  simp

theorem appendByte_tbuf_other {s : State} {k : Fin 8} (h : k.val ≠ s.rowcnt.toNat) (b : Byte) :
    (appendByte b s).tbuf[k] = s.tbuf[k] :=
  Vector.getElem_set_ne (rowIndex s.rowcnt).isLt k.isLt h.symm

/-- With the byte appended one entry more holds a value (R27 (i), R85). -/
theorem State.Inv.buffer_appendByte {s : State} (h : s.Inv) (b : Byte) (k : Fin 8) :
    (appendByte b s).tbuf[k].isSome = decide (k.val < s.rowcnt.toNat + 1) := by
  by_cases hk : k.val = s.rowcnt.toNat
  · obtain rfl : k = rowIndex s.rowcnt := Fin.ext hk
    rw [appendByte_tbuf_same]
    simp
  · rw [appendByte_tbuf_other hk, h.buffer k, decide_eq_decide]
    omega

/-! ### What the operations keep -/

section
variable {s : State} (h : s.Inv)
include h

theorem State.Inv.beginRun : (beginRun s).Inv :=
  ⟨lanes_novalue, buffer_novalue, Status.inv_clear, fun _ => rfl, h.grid, h.inputs⟩

theorem State.Inv.resetBlock : (resetBlock s).Inv :=
  ⟨lanes_novalue, buffer_novalue, Status.inv_clear, fun _ => rfl, h.grid, h.inputs⟩

theorem State.Inv.invalidateLanes : (invalidateLanes s).Inv :=
  ⟨lanes_novalue, h.buffer, h.status, h.done_empty, h.grid, h.inputs⟩

theorem State.Inv.emptyBuffer : (emptyBuffer s).Inv :=
  ⟨h.lanes, buffer_novalue, h.status, fun _ => rfl, h.grid, h.inputs⟩

theorem State.Inv.raise (hs : s.stopped = false) {code : FCode} (hcode : code ≠ .noFault) (info : BitVec 32) :
    (raise code info s).Inv := by
  refine ⟨h.lanes, h.buffer, ?_, h.done_empty, h.grid, h.inputs⟩
  rw [raise_status, (h.record_of_running hs).1]
  exact Status.inv_fault hcode info

theorem State.Inv.setDone (hs : s.stopped = false) (hr : s.rowcnt = 0#3) : (setDone s).Inv := by
  refine ⟨h.lanes, h.buffer, ?_, fun _ => hr, h.grid, h.inputs⟩
  obtain ⟨hstatus, hinfo⟩ := h.record_of_running hs
  rw [setDone_status, setDone_finfo, hstatus, hinfo]
  exact Status.inv_done (by decide)

/-- END with rows buffered: the buffer is emptied and the rows are counted (R104). -/
theorem State.Inv.dropRows (hs : s.stopped = false) (hr : s.rowcnt ≠ 0#3) :
    (Machine.setDone (Machine.emptyBuffer
      { s with status := { s.status with ptd := true, ptdrows := s.rowcnt } })).Inv := by
  refine ⟨h.lanes, buffer_novalue, ?_, fun _ => rfl, h.grid, h.inputs⟩
  obtain ⟨hstatus, hinfo⟩ := h.record_of_running hs
  simp only [setDone_status, setDone_finfo, emptyBuffer_status, emptyBuffer_finfo, hstatus, hinfo]
  exact Status.inv_done (by simp [hr])

theorem State.Inv.writeLane (lane : Fin 8) (rgb : Pixel) : (writeLane lane rgb s).Inv := by
  refine ⟨fun x => ?_, h.buffer, h.status, h.done_empty, h.grid, h.inputs⟩
  by_cases hx : x = lane
  · rw [hx, writeLane_px_same, writeLane_pxv_same, Option.isSome_some]
  · rw [writeLane_px_other hx, writeLane_pxv_other hx, h.lanes x]

theorem State.Inv.writeLanes {v : Vector (Option Pixel) 8} (hv : ∀ x : Fin 8, v[x].isSome = true) :
    (writeLanes v s).Inv :=
  ⟨fun x => (hv x).trans (lanes_allValid x).symm, h.buffer, h.status, h.done_empty, h.grid, h.inputs⟩

theorem State.Inv.appendRow (hs : s.stopped = false) (hr : s.rowcnt ≠ 7#3) (b : Byte) :
    ({ appendByte b s with rowcnt := s.rowcnt + 1#3 } : State).Inv := by
  have hcount : (s.rowcnt + 1#3).toNat = s.rowcnt.toNat + 1 := by bv_omega
  refine ⟨h.lanes, fun k => ?_, h.status, fun hdone => ?_, h.grid, h.inputs⟩
  · show (appendByte b s).tbuf[k].isSome = decide (k.val < (s.rowcnt + 1#3).toNat)
    rw [hcount, h.buffer_appendByte b k]
  · exact absurd (hdone.symm.trans ((running_iff s).1 hs).2) (by decide)

/-- The tile emitted or dropped takes the appended byte with it: the buffer is empty after both (R86). -/
theorem State.Inv.emitTile (b : Byte) (bytes : Vector Byte 8) : (emitTile bytes (appendByte b s)).Inv :=
  ⟨h.lanes, buffer_novalue, h.status, fun _ => rfl, h.grid, h.inputs⟩

theorem State.Inv.outOfLabels (hs : s.stopped = false) (b : Byte) : (outOfLabels (appendByte b s)).Inv :=
  State.Inv.raise h.emptyBuffer hs (by decide) (outOfLabelsInfo s.tileidx)

/-! ### What a word keeps -/

theorem State.Inv.acceptWord {w : Word} {t : State} (hw : acceptWord w s = .next t) : t.Inv := by
  rcases acceptWord_next hw with ⟨-, rfl, -⟩ | ⟨rgb, -, rfl⟩ | ⟨n, -, rfl⟩ | ⟨-, rfl⟩ | ⟨hs, hrun⟩
  · exact h
  · exact { h with }
  · exact { h with }
  · exact h.beginRun
  · rcases hrun with ⟨-, hr, rfl⟩ | ⟨-, hr, rfl⟩ | ⟨lane, rgb, -, rfl⟩ | ⟨v, -, hv, rfl⟩ | ⟨x, -, -, rfl⟩ | ⟨-, -, rfl⟩
      | ⟨-, -, p, -, hpack⟩ | ⟨-, rfl⟩
    · exact h.setDone hs hr
    · exact h.dropRows hs hr
    · exact h.writeLane lane rgb
    · exact h.writeLanes fun x => (fetchRow_ok hv x).2
    · exact h.raise hs (by decide) _
    · exact h.raise hs (by decide) _
    · rcases hpack with ⟨hr, rfl⟩ | ⟨-, -, rfl⟩ | ⟨-, -, bytes, -, rfl⟩
      · exact h.invalidateLanes.appendRow hs hr _
      · exact h.invalidateLanes.outOfLabels hs _
      · exact h.invalidateLanes.emitTile _ bytes
    · exact h.raise hs (by decide) _

/-! ### What is presented -/

/-- What waits behind the first thing presented is still in the grid's canonical form. -/
theorem State.Inv.takeInput {i : Input} {rest : List Input} (hi : s.inputs = i :: rest) :
    ({ s with inputs := rest } : State).Inv :=
  { h with inputs := fun j hj => h.inputs j (hi ▸ List.mem_cons_of_mem i hj) }

theorem State.Inv.setGrid {g : Grid} (hg : Memory.wf g = true) : ({ s with grid := g } : State).Inv :=
  { h with grid := hg }

end

/-- Settles O38: reset is a fixed point of the reset event, which clears every register the invariants speak of. -/
theorem resetKeepsInvariants : Obligations.ResetKeepsInvariants :=
  ⟨lanes_novalue, buffer_novalue, Status.inv_clear, fun _ => rfl, rfl, List.forall_mem_nil _⟩

/-- Settles O39: the presented word or event is taken off the front, then each keeps the invariants. -/
theorem stepKeepsInvariants : Obligations.StepKeepsInvariants := by
  intro s t h hstep
  rcases step_cases s with ⟨-, e⟩ | ⟨w, rest, hi, e⟩ | ⟨a, b, rest, -, e⟩ | ⟨d, rest, hi, e⟩ | ⟨g, rest, hi, e⟩
    | ⟨x, y, rgb, rest, hi, e⟩
  · exact Host.Outcome.next.inj (e.symm.trans hstep) ▸ h
  · exact (h.takeInput hi).acceptWord (e.symm.trans hstep)
  · cases e.symm.trans hstep
  · exact Host.Outcome.next.inj (e.symm.trans hstep) ▸ (h.takeInput hi).resetBlock
  · have hg : Memory.wf g = true := h.inputs (.attach g) (hi ▸ List.mem_cons_self)
    exact Host.Outcome.next.inj (e.symm.trans hstep) ▸ (h.takeInput hi).setGrid hg
  · rcases changeCell_cases x y rgb { s with inputs := rest } with ⟨g, hput, e'⟩ | ⟨-, e'⟩
    · exact Host.Outcome.next.inj ((e.trans e').symm.trans hstep) ▸ (h.takeInput hi).setGrid (Grid.put_wf h.grid hput)
    · cases (e.trans e').symm.trans hstep

/-! ### Every command word completes -/

section
variable {s : State} (h : s.Inv)
include h

/-- With every valid bit set the lanes are read (R12, R84). -/
theorem State.Inv.lanes_read (hv : s.pxv = 0xFF#8) : ∃ p, allSome s.px = some p := by
  refine allSome_isSome s.px fun x => ?_
  rw [h.lanes x, hv]
  exact lanes_allValid x

/-- With seven rows buffered and the eighth appended the buffer is read (R27 (i), R86). -/
theorem State.Inv.buffer_read (hr : s.rowcnt = 7#3) (b : Byte) :
    ∃ bytes, allSome (appendByte b s).tbuf = some bytes := by
  refine allSome_isSome _ fun k => ?_
  rw [h.buffer_appendByte b k, hr, decide_eq_true_eq]
  exact k.isLt

theorem State.Inv.execPack_answersNext : answersNext (execPack s) := by
  rcases execPack_cases s with ⟨-, e⟩ | ⟨-, -, e⟩ | ⟨-, -, p, -, e⟩ | ⟨-, hv, hp, -⟩
  · exact ⟨_, e⟩
  · exact ⟨_, e⟩
  · rcases acceptByte_cases (pack8 s.ink p) (Machine.invalidateLanes s) with ⟨-, e'⟩ | ⟨-, -, e'⟩ | ⟨-, -, bytes, -, e'⟩
      | ⟨hr, -, hb, -⟩
    · exact ⟨_, e.trans e'⟩
    · exact ⟨_, e.trans e'⟩
    · exact ⟨_, e.trans e'⟩
    · obtain ⟨bytes, hbytes⟩ := h.invalidateLanes.buffer_read hr (pack8 s.ink p)
      cases hb.symm.trans hbytes
  · obtain ⟨p, hlanes⟩ := h.lanes_read hv
    cases hp.symm.trans hlanes

theorem State.Inv.exec_answersNext (i : Instr) : answersNext (exec i s) := by
  cases i with
  | setInk rgb => exact ⟨_, rfl⟩
  | setLim n => exact ⟨_, rfl⟩
  | start => exact ⟨_, rfl⟩
  | endRun =>
    rcases execEndRun_cases s with ⟨-, e⟩ | ⟨-, -, e⟩ | ⟨-, -, e⟩ <;> exact ⟨_, e⟩
  | ldPx lane rgb =>
    rcases execLdPx_cases lane rgb s with ⟨-, e⟩ | ⟨-, e⟩ <;> exact ⟨_, e⟩
  | ldRow =>
    rcases execLdRow_cases s with ⟨-, e⟩ | ⟨-, v, -, e⟩ | ⟨-, x, -, e⟩ <;> exact ⟨_, e⟩
  | pack => exact h.execPack_answersNext

theorem State.Inv.acceptWord_answersNext (w : Word) : answersNext (Machine.acceptWord w s) := by
  rcases acceptWord_cases w s with ⟨i, -, e⟩ | ⟨-, -, e⟩
  · exact e ▸ h.exec_answersNext i
  · exact ⟨_, e⟩

end

/-- The platform's change of a cell completes exactly where the grid has the cell (R30, log 12). -/
theorem changeCell_answersNext_iff (x y : Nat) (rgb : Pixel) (s : State) :
    answersNext (changeCell x y rgb s) ↔ x < s.grid.width ∧ y < s.grid.height := by
  have hadmits : s.grid.admits x y = true ↔ x < s.grid.width ∧ y < s.grid.height := by simp [Grid.admits]
  rw [← hadmits, changeCell, Grid.put]
  cases s.grid.admits x y <;> simp [answersNext]

/-- Settles O40: of the six things a step can meet, only the two named ones have a stop. -/
theorem everyWordCompletes : Obligations.EveryWordCompletes := by
  intro s h
  rcases step_cases s with ⟨hi, e⟩ | ⟨w, rest, hi, e⟩ | ⟨a, b, rest, hi, e⟩ | ⟨d, rest, hi, e⟩ | ⟨g, rest, hi, e⟩
    | ⟨x, y, rgb, rest, hi, e⟩
  · simp [hi, e]
  · obtain ⟨t, ht⟩ := (h.takeInput hi).acceptWord_answersNext w
    simp [hi, e.trans ht]
  · simp [hi, e]
  · simp [hi, e]
  · simp [hi, e]
  · have hcell := changeCell_answersNext_iff x y rgb { s with inputs := rest }
    rw [e]
    refine hcell.trans ⟨fun hin => ⟨by simp [hi], ?_⟩, fun ⟨_, hcells⟩ => ?_⟩
    · rintro ⟨x', y', rgb', rest', hi', hout⟩
      cases hi.symm.trans hi'
      exact hout hin
    · by_contra hout
      exact hcells ⟨x, y, rgb, rest, hi, hout⟩

end Sys2Proof.Machine
end

section
/-! The output stream, the counters and the grid: what one step can do to them (10_state.md R13 to R15, R27 (vii),
(viii); 20_memory.md R30, R39). -/

namespace Sys2Proof.Machine

/-! ### What a word can do to OUT, TILEIDX, LIMIT and the grid -/

/-- `t` holds one record more than `s`, with index TILEIDX, and TILEIDX is one more (R86). -/
def emitsNextRecord (s t : State) : Prop :=
  (∃ b, t.out = s.out ++ [{ idx := s.tileidx, b := b }]) ∧ t.tileidx = s.tileidx + 1#16

/-- A word leaves OUT and TILEIDX, or begins a run, or is a PACK that emits the next record. -/
theorem acceptWord_out_cases {w : Word} {s t : State} (h : acceptWord w s = .next t) :
    (t.out = s.out ∧ t.tileidx = s.tileidx)
      ∨ (decode w = .ok .start ∧ t = beginRun s)
      ∨ (decode w = .ok .pack ∧ s.tileidx < s.limit ∧ emitsNextRecord s t) := by
  rcases acceptWord_next h with ⟨-, rfl, -⟩ | ⟨rgb, -, rfl⟩ | ⟨n, -, rfl⟩ | ⟨hd, rfl⟩ | ⟨-, hrun⟩
  any_goals exact .inl ⟨rfl, rfl⟩ -- dropped, SETINK, SETLIM
  · exact .inr (.inl ⟨hd, rfl⟩)
  · rcases hrun with ⟨-, -, rfl⟩ | ⟨-, -, rfl⟩ | ⟨lane, rgb, -, rfl⟩ | ⟨v, -, -, rfl⟩ | ⟨x, -, -, rfl⟩ | ⟨-, -, rfl⟩
      | ⟨hd, -, p, -, ⟨-, rfl⟩ | ⟨-, -, rfl⟩ | ⟨-, hlt, bytes, -, rfl⟩⟩ | ⟨-, rfl⟩
    any_goals exact .inl ⟨rfl, rfl⟩ -- every other command and every fault
    exact .inr (.inr ⟨hd, hlt, ⟨bytes, rfl⟩, rfl⟩)

/-- A word leaves the grid, and LIMIT too unless it is a SETLIM (R18, R30). -/
theorem acceptWord_frame {w : Word} {s t : State} (h : acceptWord w s = .next t) :
    t.grid = s.grid ∧ (t.limit = s.limit ∨ ∃ n, decode w = .ok (.setLim n) ∧ t.limit = n) := by
  rcases acceptWord_next h with ⟨-, rfl, -⟩ | ⟨rgb, -, rfl⟩ | ⟨n, hd, rfl⟩ | ⟨-, rfl⟩ | ⟨-, hrun⟩
  any_goals exact ⟨rfl, .inl rfl⟩ -- dropped, SETINK, START
  · exact ⟨rfl, .inr ⟨n, hd, rfl⟩⟩
  · rcases hrun with ⟨-, -, rfl⟩ | ⟨-, -, rfl⟩ | ⟨lane, rgb, -, rfl⟩ | ⟨v, -, -, rfl⟩ | ⟨x, -, -, rfl⟩ | ⟨-, -, rfl⟩
      | ⟨-, -, p, -, ⟨-, rfl⟩ | ⟨-, -, rfl⟩ | ⟨-, -, bytes, -, rfl⟩⟩ | ⟨-, rfl⟩
    all_goals exact ⟨rfl, .inl rfl⟩

/-- A step leaves OUT and TILEIDX, or begins a run, or takes a PACK that emits the next record. -/
theorem step_out_cases {s t : State} (h : step s = .next t) :
    (t.out = s.out ∧ t.tileidx = s.tileidx)
      ∨ (t.out = s.out ∧ ((∃ d rest, s.inputs = .reset d :: rest)
          ∨ ∃ w rest, s.inputs = .word w :: rest ∧ decode w = .ok .start))
      ∨ (∃ w rest, s.inputs = .word w :: rest ∧ decode w = .ok .pack ∧ s.tileidx < s.limit ∧ emitsNextRecord s t) := by
  rcases step_cases s with ⟨-, e⟩ | ⟨w, rest, hi, e⟩ | ⟨a, b, rest, -, e⟩ | ⟨d, rest, hi, e⟩ | ⟨g, rest, -, e⟩
    | ⟨x, y, rgb, rest, -, e⟩
  · cases e.symm.trans h
    exact .inl ⟨rfl, rfl⟩
  · rcases acceptWord_out_cases (e.symm.trans h) with hkept | ⟨hd, rfl⟩ | ⟨hd, hlt, hemit⟩
    · exact .inl hkept
    · exact .inr (.inl ⟨rfl, .inr ⟨w, rest, hi, hd⟩⟩)
    · exact .inr (.inr ⟨w, rest, hi, hd, hlt, hemit⟩)
  · cases e.symm.trans h
  · cases e.symm.trans h
    exact .inr (.inl ⟨rfl, .inl ⟨d, rest, hi⟩⟩)
  · cases e.symm.trans h
    exact .inl ⟨rfl, rfl⟩
  · rcases changeCell_cases x y rgb { s with inputs := rest } with ⟨g, -, e'⟩ | ⟨-, e'⟩
    · cases (e.trans e').symm.trans h
      exact .inl ⟨rfl, rfl⟩
    · cases (e.trans e').symm.trans h

/-! ### OUT and the grid -/

/-- Settles O44: of all that can be presented only a PACK appends. -/
theorem outIsAppendOnly : Obligations.OutIsAppendOnly := by
  intro s t h
  rcases step_out_cases h with ⟨hout, -⟩ | ⟨hout, -⟩ | ⟨w, rest, hi, hd, -, ⟨b, hout⟩, -⟩
  · exact .inl hout
  · exact .inl hout
  · exact .inr ⟨_, w, rest, hout, rfl, hi, hd⟩

/-- Settles O45: the frame of a word, whatever waits behind it. -/
theorem blockNeverWritesGrid : Obligations.BlockNeverWritesGrid := by
  rintro s t ⟨w, rest, hi⟩ h
  exact (acceptWord_frame ((step_of_word hi).symm.trans h)).1

/-! ### TILEIDX and LIMIT -/

/-- Below LIMIT there is room for one index more: TILEIDX does not wrap (R15). -/
theorem tileidx_succ_toNat {s : State} (h : s.tileidx < s.limit) :
    (s.tileidx + 1#16).toNat = s.tileidx.toNat + 1 := by
  bv_omega

/-- Settles O42: TILEIDX rises only below LIMIT, and only SETLIM moves LIMIT. -/
theorem tileIndexWithinLimit : Obligations.TileIndexWithinLimit := by
  intro s t w h
  rw [step_present] at h
  obtain ⟨-, hlimit⟩ := acceptWord_frame h
  rcases acceptWord_out_cases h with ⟨-, hkept⟩ | ⟨-, rfl⟩ | ⟨hd, hlt, -, hnext⟩
  · refine ⟨fun hle hset => ?_, .inl hkept⟩
    rw [hkept]
    rcases hlimit with hl | ⟨n, hn, hl⟩
    · rwa [hl]
    · rw [hl]
      exact hset n hn
  · exact ⟨fun _ _ => BitVec.le_def.2 (Nat.zero_le _), .inr (.inl rfl)⟩
  · have hindex : t.tileidx.toNat = s.tileidx.toNat + 1 := by rw [hnext, tileidx_succ_toNat hlt]
    refine ⟨fun _ _ => ?_, .inr (.inr ⟨hd, hlt, hindex⟩)⟩
    rcases hlimit with hl | ⟨n, hn, -⟩
    · rw [hl, BitVec.le_def, hindex]
      exact hlt
    · cases hd.symm.trans hn

/-! ### The records of a run -/

/-- Nothing but OUT and TILEIDX counts for the records of a run (R27 (viii)). -/
theorem runRecords_congr {before : List Tile} {s t : State} (h : runRecords before s) (hout : t.out = s.out)
    (htile : t.tileidx = s.tileidx) : runRecords before t := by
  rwa [runRecords, hout, htile]

/-- A run begins with no record of its own. -/
theorem runRecords_of_begin {s : State} (htile : s.tileidx = 0#16) : runRecords s.out s :=
  ⟨[], (List.append_nil s.out).symm, by rw [htile]; rfl⟩

/-- The record that the next PACK emits carries the next index. -/
theorem runRecords_of_emit {before : List Tile} {s t : State} (h : runRecords before s) (hlt : s.tileidx < s.limit)
    (hemit : emitsNextRecord s t) : runRecords before t := by
  obtain ⟨records, hout, hindices⟩ := h
  obtain ⟨⟨b, hout'⟩, hnext⟩ := hemit
  refine ⟨records ++ [{ idx := s.tileidx, b := b }], by rw [hout', hout, List.append_assoc], ?_⟩
  rw [hnext, tileidx_succ_toNat hlt, List.range_succ, List.map_append, hindices]
  rfl

/-- Settles O41: a step that begins no run keeps OUT and TILEIDX or emits the next record. -/
theorem runRecordsAreNumbered : Obligations.RunRecordsAreNumbered := by
  refine ⟨fun before s t h hstep hstart hreset => ?_, fun s t h => ?_, fun s => runRecords_of_begin rfl⟩
  · rcases step_out_cases hstep with ⟨hout, htile⟩ | ⟨-, ⟨d, rest, hi⟩ | ⟨w, rest, hi, hd⟩⟩ | ⟨-, -, -, -, hlt, hemit⟩
    · exact runRecords_congr h hout htile
    · exact absurd hi (hreset d rest)
    · exact absurd hd (hstart w rest hi)
    · exact runRecords_of_emit h hlt hemit
  · obtain rfl : beginRun s = t := Host.Outcome.next.inj h
    exact runRecords_of_begin (s := beginRun s) rfl

/-! ### The scan position -/

/-- END drops the rows of an unfinished tile: ROWCNT is 0 after it, TILEIDX as before (R104). -/
theorem dropPartialTile_counters (s : State) :
    (dropPartialTile s).rowcnt = 0#3 ∧ (dropPartialTile s).tileidx = s.tileidx := by
  by_cases h : s.rowcnt = 0#3
  · rw [dropPartialTile_of_empty h]
    exact ⟨h, rfl⟩
  · rw [dropPartialTile_of_rows h]
    exact ⟨rfl, rfl⟩

/-- A PACK in RUN mode that records no fault moves the scan to the next row: the next ROWCNT, or row 0 of the next
tile (R13). -/
theorem scanPos_of_pack {s t : State} (hs : s.stopped = false) (h : exec .pack s = .next t)
    (hfault : t.status.fault = false) : (scanPos t).toNat = (scanPos s).toNat + 1 := by
  have hraised : ∀ {p : Prop}, t.status.fault = true → p := fun ht => absurd (ht.symm.trans hfault) (by decide)
  rcases execPack_next h with ⟨hstop, -⟩ | ⟨-, -, rfl⟩
    | ⟨-, -, p, -, ⟨hr, rfl⟩ | ⟨-, -, rfl⟩ | ⟨hr, hlt, bytes, -, rfl⟩⟩
  · cases hstop.symm.trans hs
  · exact hraised rfl
  · have hcount : (s.rowcnt + 1#3).toNat = s.rowcnt.toNat + 1 := by bv_omega
    rw [scanPos_toNat, scanPos_toNat, Nat.add_assoc, ← hcount]
    rfl
  · exact hraised rfl
  · have hrows : s.rowcnt.toNat = 7 := congrArg BitVec.toNat hr
    have hindex := tileidx_succ_toNat hlt
    rw [scanPos_toNat, scanPos_toNat, hrows]
    show 8 * (s.tileidx + 1#16).toNat + 0 = _
    omega

/-- A PACK that records OutOfLabels stands at row 0 of the same tile after it (R13, R137). -/
theorem counters_of_pack_outOfLabels {s t : State} (hs : s.stopped = false) (h : exec .pack s = .next t)
    (hcode : t.status.fcode = .outOfLabels) (hbefore : s.status.fcode ≠ .outOfLabels) :
    t.rowcnt = 0#3 ∧ t.tileidx = s.tileidx := by
  have hkept : ∀ {p : Prop}, t.status.fcode = s.status.fcode → p := fun ht => absurd (ht.symm.trans hcode) hbefore
  rcases execPack_next h with ⟨hstop, -⟩ | ⟨-, -, rfl⟩ | ⟨-, -, p, -, ⟨-, rfl⟩ | ⟨-, -, rfl⟩ | ⟨-, -, bytes, -, rfl⟩⟩
  · cases hstop.symm.trans hs
  · cases hcode
  · exact hkept rfl
  · exact ⟨rfl, rfl⟩
  · exact hkept rfl

/-- SETINK, SETLIM, LDPX and LDROW write neither counter (R13). -/
theorem scanPos_of_other {i : Instr} {s t : State} (hpack : i ≠ .pack) (hstart : i ≠ .start) (hend : i ≠ .endRun)
    (h : exec i s = .next t) : scanPos t = scanPos s := by
  rcases exec_next h with ⟨rgb, -, rfl⟩ | ⟨n, -, rfl⟩ | ⟨hi, -⟩ | ⟨hi, -⟩ | ⟨lane, rgb, rfl, -⟩ | ⟨rfl, -⟩ | ⟨hi, -⟩
  · rfl
  · rfl
  · exact absurd hi hstart
  · exact absurd hi hend
  · obtain ⟨⟨hrow, htile, -⟩, -⟩ := laneLoadFrame _ s t (.inl ⟨lane, rgb, rfl⟩) h
    exact scanPos_congr htile hrow
  · obtain ⟨⟨hrow, htile, -⟩, -⟩ := laneLoadFrame _ s t (.inr rfl) h
    exact scanPos_congr htile hrow
  · exact absurd hi hpack

/-- Settles O43: the scan position by its two counters, command by command. -/
theorem scanPositionMoves : Obligations.ScanPositionMoves := by
  refine ⟨scanPos_toNat, fun s t => scanPos_of_pack, fun s t h => ?_, scanPos_resetBlock, fun s t hs h => ?_,
    fun s t hs h hcode hbefore => ?_, fun i s t => scanPos_of_other⟩
  · obtain rfl : beginRun s = t := Host.Outcome.next.inj h
    exact scanPos_beginRun s
  · obtain rfl := Host.Outcome.next.inj ((exec_endRun_of_running hs).symm.trans h)
    obtain ⟨hrow, htile⟩ := dropPartialTile_counters s
    rw [scanPos_extract_rowcnt, scanPos_extract_tileidx, scanPos_extract_tileidx]
    exact ⟨hrow, htile⟩
  · obtain ⟨hrow, htile⟩ := counters_of_pack_outOfLabels hs h hcode hbefore
    rw [scanPos_extract_rowcnt, scanPos_extract_tileidx, scanPos_extract_tileidx]
    exact ⟨hrow, htile⟩

end Sys2Proof.Machine
end

section
/-! The row byte column by column: the OR network, and the two extremes (42_pack.md R83, R84). -/

namespace Sys2Proof.Machine

/-- A byte is its bits, column by column: column x stands at bit 7 - x (R82). -/
theorem byte_eq_iff_columns (b c : Byte) : b = c ↔ ∀ x : Fin 8, b.getLsbD (7 - x.val) = c.getLsbD (7 - x.val) := by
  refine ⟨fun h _ => h ▸ rfl, fun h => BitVec.eq_of_getLsbD_eq fun i hi => ?_⟩
  have hcolumn := h ⟨7 - i, by omega⟩
  have hbit : 7 - (7 - i) = i := by omega
  rwa [hbit] at hcolumn

/-- Column x of the row byte is set exactly where its pixel is the ink (R82). -/
theorem pack8_getLsbD (ink : Pixel) (p : Vector Pixel 8) (x : Fin 8) :
    (pack8 ink p).getLsbD (7 - x.val) = decide (p[x] = ink) := by
  rw [pack8_eq_wiredByte, wiredByte_getLsbD, matchBit_getLsbD]

/-- The row byte is whatever byte has the ink's columns set and the others clear. -/
theorem pack8_eq_iff (ink : Pixel) (p : Vector Pixel 8) (b : Byte) :
    pack8 ink p = b ↔ ∀ x : Fin 8, decide (p[x] = ink) = b.getLsbD (7 - x.val) := by
  simp only [byte_eq_iff_columns, pack8_getLsbD]

/-- Settles O24: column by column, 255 has every bit set and 0 none. -/
theorem rowByteExtremes : Obligations.RowByteExtremes := by
  intro ink p
  have hall : ∀ x : Fin 8, (255#8).getLsbD (7 - x.val) = true := by decide
  have hnone : ∀ x : Fin 8, (0#8).getLsbD (7 - x.val) = false := by decide
  constructor
  · simp only [pack8_eq_iff, hall, decide_eq_true_eq]
  · simp only [pack8_eq_iff, hnone, decide_eq_false_iff_not, Ne]

/-! ### The OR network -/

/-- A weight that its comparator selects sets the bit of its own column and no other (R82). -/
theorem selectedWeight_getLsbD (ink pixel : Pixel) (c x : Fin 8) :
    (BitVec.ofNat 8 (eq24 pixel ink * weight c)).getLsbD (7 - x.val) = (decide (pixel = ink) && decide (c = x)) := by
  have hweight : ∀ c x : Fin 8, (BitVec.ofNat 8 (weight c)).getLsbD (7 - x.val) = decide (c = x) := by decide
  by_cases h : pixel = ink
  · rw [eq24, if_pos h, Nat.one_mul, hweight, decide_eq_true h, Bool.true_and]
  · rw [eq24, if_neg h, Nat.zero_mul, decide_eq_false h, Bool.false_and]
    exact BitVec.getLsbD_zero

/-- Each column of the OR network has one weight that can set it (R83 (a)). -/
theorem orByte_getLsbD (ink : Pixel) (p : Vector Pixel 8) (x : Fin 8) :
    (orByte ink p).getLsbD (7 - x.val) = decide (p[x] = ink) := by
  simp only [orByte, columns, List.map_cons, List.map_nil, List.foldl_cons, List.foldl_nil, BitVec.getLsbD_or,
    BitVec.getLsbD_zero, selectedWeight_getLsbD, Bool.false_or]
  fin_cases x <;> simp

theorem orByte_eq_pack8 (ink : Pixel) (p : Vector Pixel 8) : orByte ink p = pack8 ink p :=
  (byte_eq_iff_columns _ _).2 fun x => (orByte_getLsbD ink p x).trans (pack8_getLsbD ink p x).symm

/-- Settles O23: the sum fits in eight bits, and the three networks are one byte. -/
theorem adderOrAndWiringAgree : Obligations.AdderOrAndWiringAgree := fun ink p =>
  ⟨weightedSum_le_255 ink p, pack8_toNat ink p, orByte_eq_pack8 ink p,
    (pack8_eq_wiredByte ink p).symm.trans (orByte_eq_pack8 ink p).symm⟩

end Sys2Proof.Machine
end

section
/-! PACK in RUN mode with every lane valid: the append, the emit, and the frame (42_pack.md R84 to R87). -/

namespace Sys2Proof.Machine

/-- Away from a tile boundary the byte is appended and ROWCNT advances (R85). -/
theorem acceptByte_of_append {s : State} (b : Byte) (hr : s.rowcnt ≠ 7#3) :
    acceptByte b s = .next { appendByte b s with rowcnt := s.rowcnt + 1#3 } :=
  if_pos hr

/-- At a tile boundary with a label the bytes buffered are emitted (R86). -/
theorem acceptByte_of_emit {s : State} {b : Byte} {bytes : Vector Byte 8} (hr : s.rowcnt = 7#3)
    (hl : s.tileidx < s.limit) (hb : allSome (appendByte b s).tbuf = some bytes) :
    acceptByte b s = .next (emitTile bytes (appendByte b s)) := by
  rcases acceptByte_cases b s with ⟨hne, -⟩ | ⟨-, hle, -⟩ | ⟨-, -, bytes', hb', e⟩ | ⟨-, -, hb', -⟩
  · exact absurd hr hne
  · exact absurd hl (BitVec.not_lt.2 hle)
  · obtain rfl : bytes = bytes' := Option.some.inj (hb.symm.trans hb')
    exact e
  · cases hb.symm.trans hb'

/-- Settles O26: the lanes are consumed, then the byte is appended. -/
theorem packAppendsRow : Obligations.PackAppendsRow := by
  refine ⟨rfl, fun s p hs hv hp hr => ?_⟩
  rw [exec_pack_of_lanes hs hv hp, acceptByte_of_append (s := invalidateLanes s) _ hr]
  rfl

/-- Settles O27: the buffer with the new byte in place reads as the record's eight bytes. -/
theorem packEmitsTile : Obligations.PackEmitsTile := by
  intro s p b hs hv hp hr hl hb hlast
  have hrows : s.rowcnt.toNat = 7 := congrArg BitVec.toNat hr
  have hnew : ∀ k : Fin 8, k.val = 7 → b[k] = pack8 s.ink p := by
    rintro ⟨k, hk⟩ rfl
    exact hlast
  have hbytes : allSome (appendByte (pack8 s.ink p) (invalidateLanes s)).tbuf = some b := by
    refine (allSome_eq_some_iff _ b).2 fun k => ?_
    by_cases hk : k.val = s.rowcnt.toNat
    · obtain rfl : k = rowIndex s.rowcnt := Fin.ext hk
      rw [hnew (rowIndex s.rowcnt) hrows]
      exact appendByte_tbuf_same (pack8 s.ink p) (invalidateLanes s)
    · rw [appendByte_tbuf_other (s := invalidateLanes s) hk]
      exact hb k (by omega)
  rw [exec_pack_of_lanes hs hv hp, acceptByte_of_emit (s := invalidateLanes s) hr hl hbytes]
  rfl

/-- Settles O30: the next states of PACK, each read field by field. -/
theorem packFrame : Obligations.PackFrame := by
  intro s t h
  rcases execPack_next h with ⟨hs, rfl⟩ | ⟨hs, hv, rfl⟩ | ⟨hs, hv, p, -, hpack⟩
  · -- dropped
    exact ⟨by simp, by simp, by simp, by simp, by simp [hs], by simp, by simp⟩
  · -- LaneUndefined
    have hfault : s.status.fault = false := ((running_iff s).1 hs).1
    exact ⟨by simp, by simp, by simp, by simp, fun ⟨_, hall, _, _⟩ => absurd hall hv, by simp, by simp [hfault]⟩
  · have hfault : s.status.fault = false := ((running_iff s).1 hs).1
    rcases hpack with ⟨hr, rfl⟩ | ⟨hr, hl, rfl⟩ | ⟨hr, hl, bytes, -, rfl⟩
    · -- the row appended
      exact ⟨by simp, by simp, by simp, by simp, fun ⟨_, _, hlast, _⟩ => absurd hlast hr,
        fun _ k hk => appendByte_tbuf_other (s := invalidateLanes s) hk _, by simp⟩
    · -- OutOfLabels
      exact ⟨by simp, by simp, by simp, by simp, fun ⟨_, _, _, hlt⟩ => absurd hlt (BitVec.not_lt.2 hl),
        fun hne => absurd hr hne, by simp [hfault]⟩
    · -- the record emitted
      exact ⟨by simp, by simp, fun k hk => List.getElem?_append_left hk, fun hno => absurd ⟨hs, hv, hr, hl⟩ hno,
        fun _ => ⟨bytes, rfl⟩, fun hne => absurd hr hne, by simp⟩

end Sys2Proof.Machine
end

section
/-! Small rules of the block: admission of a row, the frame of the control commands, the record of a fault, the reset
event and what is presented (20_memory.md R32, 43_control.md R100 to R104, R136, R160, V8). -/

namespace Sys2Proof.Machine

/-! ### Admission -/

/-- A grid with eight columns or more admits every cell of its own rows (R32). -/
theorem fetchRow_of_admittedRow {g : Grid} {y : BitVec 19} (hw : 8 ≤ g.width) (hy : y.toNat < g.height) :
    ∃ v, fetchRow g y = .ok v :=
  ⟨_, fetchRow_eq_ok fun x => by simp [gridRead_eq_gridRow hw hy x]⟩

/-- Settles O18: column 7 decides for the row, and the fetch decides between the load and GridRange. -/
theorem ldRowAdmission : Obligations.LdRowAdmission := by
  refine ⟨fun g x y => by simp [gridRead, Grid.read, Grid.admits], fun s hs => ?_⟩
  by_cases hin : 8 ≤ s.grid.width ∧ (scanPos s).toNat < s.grid.height
  · obtain ⟨v, hv⟩ := fetchRow_of_admittedRow hin.1 hin.2
    have hload : exec .ldRow s = .next (writeLanes v s) := by rw [exec_ldRow_of_running hs, loadRow_of_ok hv]
    exact ⟨⟨fun _ => hin, fun _ => ⟨_, hload, ((running_iff s).1 hs).1⟩⟩, fun hout => absurd hin hout⟩
  · have hraise : exec .ldRow s = .next (raise .gridRange (gridRangeInfo (scanPos s) 7) s) := by
      rw [exec_ldRow_of_running hs, loadRow_of_error (fetchRow_of_notAdmitted hin)]
    refine ⟨⟨?_, fun hin' => absurd hin' hin⟩, fun _ => ⟨_, hraise, rfl, rfl⟩⟩
    rintro ⟨t, ht, hfault⟩
    obtain rfl := Host.Outcome.next.inj (hraise.symm.trans ht)
    cases hfault

/-! ### The control commands -/

/-- END writes the buffer, ROWCNT and PTD, PTDROWS and DONE of STATUS, and in a state with nothing buffered DONE
alone. -/
theorem endRun_frame {s t : State} (h : exec .endRun s = .next t) :
    (t.px = s.px ∧ t.pxv = s.pxv ∧ t.tileidx = s.tileidx ∧ t.ink = s.ink ∧ t.limit = s.limit
        ∧ t.status.fault = s.status.fault ∧ t.status.fcode = s.status.fcode ∧ t.finfo = s.finfo
        ∧ (s.rowcnt = 0#3 → t.rowcnt = s.rowcnt ∧ t.tbuf = s.tbuf
            ∧ t.status.ptd = s.status.ptd ∧ t.status.ptdrows = s.status.ptdrows))
      ∧ t.grid = s.grid ∧ t.out = s.out ∧ t.inputs = s.inputs := by
  rcases execEndRun_cases s with ⟨-, e⟩ | ⟨-, -, e⟩ | ⟨-, hr, e⟩
  · cases e.symm.trans h
    simp
  · cases e.symm.trans h
    simp
  · cases e.symm.trans h
    simp [hr]

/-- Settles O15: three of the commands answer one record update, END by its frame. -/
theorem controlFrame : Obligations.ControlFrame := by
  intro s t
  refine ⟨fun rgb h => ?_, fun n h => ?_, fun h => ?_, fun h => (endRun_frame h).1, fun i hi h => ?_⟩
  · cases h
    simp
  · cases h
    simp
  · cases h
    simp
  · have hkept : t.grid = s.grid ∧ t.out = s.out ∧ t.inputs = s.inputs := by
      rcases hi with ⟨rgb, rfl⟩ | ⟨n, rfl⟩ | rfl | rfl
      · cases h
        exact ⟨rfl, rfl, rfl⟩
      · cases h
        exact ⟨rfl, rfl, rfl⟩
      · cases h
        exact ⟨rfl, rfl, rfl⟩
      · exact (endRun_frame h).2
    obtain ⟨hgrid, hout, hinputs⟩ := hkept
    exact ⟨fun x y => by rw [hgrid], fun k => by rw [hout], hinputs⟩

/-- Settles O37: START keeps INK, LIMIT and the surroundings, and writes every other register. -/
theorem startForgetsEarlierRun : Obligations.StartForgetsEarlierRun := by
  intro s s' hink hlimit hgrid hout hinputs
  have hwhole : ∀ u : State, beginRun u
      = { State.reset with ink := u.ink, limit := u.limit, grid := u.grid, out := u.out, inputs := u.inputs } :=
    fun _ => rfl
  rw [exec_start, exec_start, hwhole s, hwhole s', hink, hlimit, hgrid, hout, hinputs]

/-! ### Faults and the reset event -/

/-- Settles O31: STATUS as its five fields, and the mode they give. -/
theorem faultRecord : Obligations.FaultRecord := fun code info s => ⟨rfl, stopped_raise code info s⟩

/-- A reset presented is taken, and the word during it is not executed (R160). -/
theorem step_of_reset {s : State} {during : Option Word} {rest : List Input} (h : s.inputs = .reset during :: rest) :
    step s = .next (resetBlock { s with inputs := rest }) := by
  simp [step, takeInput, accept, h]

/-- After SETINK #000000; SETLIM 0; START the block is as after a reset (R160). -/
theorem resetBlock_eq_beginRun (s : State) :
    resetBlock s = beginRun { s with ink := 0x000000#24, limit := 0#16 } := rfl

/-- Settles O36: the event is `resetBlock`, which is START after the two registers are set to their reset values. -/
theorem resetEvent : Obligations.ResetEvent := by
  intro s during rest h
  refine ⟨step_of_reset h, _, _, rfl, rfl, ?_⟩
  rw [exec_start, ← resetBlock_eq_beginRun { s with inputs := rest }]
  rfl

/-! ### What is presented -/

/-- Settles O6: the word is taken off the front, and a legal one is its command. -/
theorem stepRunsDecodedCommand : Obligations.StepRunsDecodedCommand := fun s _ rest _ hi hd =>
  (step_of_word hi).trans (acceptWord_of_command { s with inputs := rest } hd)

/-- Settles O52: of the six things presented only two words at once match. -/
theorem twoWordsAreRefused : Obligations.TwoWordsAreRefused := by
  intro s a b rest h
  rw [step, takeInput, h]
  rfl

/-- The platform's change of a cell is taken off the front (R37). -/
theorem step_of_setCell {s : State} {x y : Nat} {rgb : Pixel} {rest : List Input}
    (h : s.inputs = .setCell x y rgb :: rest) : step s = changeCell x y rgb { s with inputs := rest } := by
  simp [step, takeInput, accept, h]

/-- Settles O51: the grid after the change is `Grid.put`'s, which the read law describes. -/
theorem cellChangeIsSeen : Obligations.CellChangeIsSeen := by
  intro s x y rgb rest hgrid hi hx hy
  have hput : s.grid.put x y rgb = some { s.grid with cells := putCell x y rgb s.grid.cells } :=
    if_pos (by simp [Grid.admits, hx, hy])
  have hread := Grid.read_put hgrid hput
  refine ⟨{ s with inputs := rest, grid := { s.grid with cells := putCell x y rgb s.grid.cells } }, ?_, rfl, rfl, rfl,
    (hread x y).trans (if_pos ⟨rfl, rfl⟩), fun u v huv => (hread u v).trans (if_neg huv)⟩
  rw [step_of_setCell hi, changeCell, hput]

end Sys2Proof.Machine
end

section
/-! Registers and records as words: STATUS bit by bit, the flat form of a record field by field (10_state.md R20,
20_memory.md R40). -/

namespace Sys2Proof.Machine

/-- The places of STATUS's fields as weights (R20). -/
theorem Status.word_toNat (t : Status) :
    t.word.toNat = t.done.toNat * 256 + t.ptdrows.toNat * 32 + t.ptd.toNat * 16 + t.fcode.code.toNat * 2
      + t.fault.toNat := by
  simp only [Status.word, append_toNat, BitVec.toNat_ofBool]
  simp
  omega

/-- A field of a word, by the word's number (R8). -/
theorem extractLsb'_eq_of_toNat {width len : Nat} {w : BitVec width} {start : Nat} {v : BitVec len}
    (h : w.toNat / 2 ^ start % 2 ^ len = v.toNat) : w.extractLsb' start len = v := by
  apply BitVec.eq_of_toNat_eq
  rw [BitVec.extractLsb'_toNat, Nat.shiftRight_eq_div_pow, h]

theorem getLsbD_eq_of_toNat {width : Nat} {w : BitVec width} {i : Nat} {b : Bool}
    (h : w.toNat / 2 ^ i % 2 = b.toNat) : w.getLsbD i = b := by
  rw [BitVec.getLsbD, Nat.testBit_eq_decide_div_mod_eq, h]
  cases b <;> rfl

/-- Settles O47: each field by its weight in the register. -/
theorem statusRegisterView : Obligations.StatusRegisterView := by
  refine ⟨fun t => ?_, rfl, rfl, rfl, rfl, rfl⟩
  have hword := t.word_toNat
  have hfault := Bool.toNat_le t.fault
  have hptd := Bool.toNat_le t.ptd
  have hdone := Bool.toNat_le t.done
  have hcode := t.fcode.code.isLt
  have hrows := t.ptdrows.isLt
  refine ⟨getLsbD_eq_of_toNat ?_, extractLsb'_eq_of_toNat ?_, getLsbD_eq_of_toNat ?_, extractLsb'_eq_of_toNat ?_,
    getLsbD_eq_of_toNat ?_, extractLsb'_eq_of_toNat ?_⟩
  · omega
  · omega
  · omega
  · omega
  · omega
  · rw [BitVec.toNat_ofNat]
    omega

/-- The flat form as a number (R40). -/
theorem Tile.flat_toNat (r : Tile) :
    r.flat.toNat = r.idx.toNat * 2 ^ 64 + r.b[0].toNat * 2 ^ 56 + r.b[1].toNat * 2 ^ 48 + r.b[2].toNat * 2 ^ 40
      + r.b[3].toNat * 2 ^ 32 + r.b[4].toNat * 2 ^ 24 + r.b[5].toNat * 2 ^ 16 + r.b[6].toNat * 2 ^ 8
      + r.b[7].toNat := by
  simp only [Tile.flat, append_toNat]
  omega

theorem Tile.flat_idx (r : Tile) : r.flat.extractLsb' 64 16 = r.idx := by
  have hflat := r.flat_toNat
  apply extractLsb'_eq_of_toNat
  omega

/-- b[k] stands in the byte whose lowest bit is 56 - 8k (R40). -/
theorem Tile.flat_byte (r : Tile) (k : Fin 8) : r.flat.extractLsb' (56 - 8 * k.val) 8 = r.b[k] := by
  have hflat := r.flat_toNat
  apply extractLsb'_eq_of_toNat
  fin_cases k <;> simp only [Fin.getElem_fin] <;> omega

/-- Settles O49: the index and the bytes are fields of the flat form, so it fixes them all. -/
theorem flatRecordFields : Obligations.FlatRecordFields := by
  refine ⟨fun r => ⟨r.flat_idx, r.flat_byte⟩, fun r r' h => ?_⟩
  have hidx : r.idx = r'.idx := by rw [← r.flat_idx, h, r'.flat_idx]
  have hbytes : r.b = r'.b := by
    ext1 k hk
    exact (r.flat_byte ⟨k, hk⟩).symm.trans ((congrArg _ h).trans (r'.flat_byte ⟨k, hk⟩))
  exact congrArg₂ Tile.mk hidx hbytes

end Sys2Proof.Machine
end

section
/-! The grid as data: in canonical form the listed cells are exactly those that read as another colour than an unlisted
cell, so the reads fix the list (log 3). -/

namespace Sys2Proof.Machine

/-- A cell of a rising list reads as its own colour: no cell before it has its place. -/
theorem cellColour_of_mem {cells : List GridCell} {c : GridCell}
    (h : cells.Pairwise (fun a b => cellBefore a.x a.y b = true)) (hc : c ∈ cells) :
    cellColour c.x c.y cells = c.rgb := by
  induction cells with
  | nil => cases hc
  | cons d rest ih =>
    obtain ⟨hd, hrest⟩ := List.pairwise_cons.1 h
    rcases List.mem_cons.1 hc with rfl | hc
    · exact if_pos ⟨rfl, rfl⟩
    · have hbefore := (cellBefore_iff d.x d.y c).1 (hd c hc)
      have hne : ¬(d.x = c.x ∧ d.y = c.y) := by omega
      exact (if_neg hne).trans (ih hrest hc)

/-- What reads as another colour than an unlisted cell is listed. -/
theorem mem_of_cellColour {cells : List GridCell} {c : GridCell} (hread : cellColour c.x c.y cells = c.rgb)
    (hrgb : c.rgb ≠ Config.unlistedCell) : c ∈ cells := by
  induction cells with
  | nil => exact absurd hread.symm hrgb
  | cons d rest ih =>
    rw [cellColour] at hread
    split at hread
    next hplace =>
      obtain ⟨hx, hy⟩ := hplace
      have hcell : d = c := by
        cases d
        cases c
        simp_all
      exact hcell ▸ List.mem_cons_self
    next => exact List.mem_cons_of_mem d (ih hread)

/-- The listed cells of a grid in canonical form, by what the grid reads as. -/
theorem mem_cells_iff_read {g : Grid} (hg : Memory.wf g = true) (c : GridCell) :
    c ∈ g.cells ↔ g.read c.x c.y = some c.rgb ∧ c.rgb ≠ Config.unlistedCell := by
  obtain ⟨hrising, hcells⟩ := (memory_wf_iff g).1 hg
  constructor
  · intro hc
    obtain ⟨hx, hy, hrgb⟩ := hcells c hc
    have hadmits : g.admits c.x c.y = true := by simp [Grid.admits, hx, hy]
    exact ⟨by rw [Grid.read, if_pos hadmits, cellColour_of_mem hrising hc], hrgb⟩
  · rintro ⟨hread, hrgb⟩
    rw [Grid.read] at hread
    split at hread
    next => exact mem_of_cellColour (Option.some.inj hread) hrgb
    next => cases hread

/-- No place stands before itself, and no two places before each other: a rising list is fixed by its members. -/
theorem eq_of_rising_of_mem_iff {cells cells' : List GridCell}
    (h : cells.Pairwise (fun a b => cellBefore a.x a.y b = true))
    (h' : cells'.Pairwise (fun a b => cellBefore a.x a.y b = true)) (hmem : ∀ c, c ∈ cells ↔ c ∈ cells') :
    cells = cells' := by
  have hirrefl : Std.Irrefl (fun a b : GridCell => cellBefore a.x a.y b = true) :=
    ⟨fun a ha => by rw [cellBefore_iff] at ha; omega⟩
  have hantisymm : Std.Antisymm (fun a b : GridCell => cellBefore a.x a.y b = true) :=
    ⟨fun a b hab hba => by rw [cellBefore_iff] at hab hba; omega⟩
  exact h.eq_of_mem_iff h' hmem

/-- Settles O50: equal reads list the same cells. -/
theorem canonicalGridsAreEqual : Obligations.CanonicalGridsAreEqual := by
  intro g g' hg hg' hwidth hheight hread
  have hcells : g.cells = g'.cells :=
    eq_of_rising_of_mem_iff ((memory_wf_iff g).1 hg).1 ((memory_wf_iff g').1 hg').1 fun c => by
      rw [mem_cells_iff_read hg, mem_cells_iff_read hg', hread]
  exact congr (congrArg₂ Grid.mk hwidth hheight) hcells

end Sys2Proof.Machine
end

section
/-! The host around the block: what reaches the sink, and the assembler's example lines (44_host_formatter.md R124 to
R128; 30_encoding.md R60). -/

namespace Sys2Proof.Machine

/-- Only the lines of a successful `encode` reach the sink, and only a writable one (R127, R128). -/
theorem writeResult_eq_written_iff {p : FormatParams} {writable : Bool} {r : EncodeResult} {text : Text}
    {dropped : Option (BitVec 3)} :
    writeResult p writable r = .written text dropped
      ↔ writable = true ∧ ∃ ls, r = .lines ls dropped ∧ text = sinkText p ls := by
  cases r with
  | lines ls d => cases writable <;> simp [writeResult, and_comm, eq_comm]
  | outOfLabels info => simp [writeResult]
  | imageLoadError => simp [writeResult]
  | tooManyLabels => simp [writeResult]
  | noLabel => simp [writeResult]
  | modelStopped => simp [writeResult]

/-- With a decoded image the conversion is one `encode` and one write (R126). -/
theorem convert_some (p : FormatParams) (g : Grid) (writable : Bool) (ink : Pixel) (labels : List Text) (s : State) :
    convert p (some g) writable ink labels s
      = (writeResult p writable (hostEncode p g ink labels s).1, (hostEncode p g ink labels s).2) := rfl

/-- Settles O59: without an image nothing is issued; with one the write decides. -/
theorem sinkOnlyAfterSuccess : Obligations.SinkOnlyAfterSuccess := by
  intro p image writable ink labels s
  refine ⟨fun text dropped h => ?_, ?_, ?_⟩
  · cases image with
    | none => cases h
    | some g =>
      rw [convert_some] at h
      obtain ⟨hwritable, ls, hlines, htext⟩ := writeResult_eq_written_iff.1 h
      exact ⟨hwritable, g, ls, rfl, hlines, htext⟩
  · rintro g info rfl herror
    rw [convert_some, herror]
    rfl
  · rintro rfl
    rfl

/-- Settles O60: each line is run through the assembler. -/
theorem assemblerExamples : Obligations.AssemblerExamples :=
  ⟨by decide, by decide, by decide, by decide, by decide, by decide, by decide, by decide, by decide, by decide⟩

end Sys2Proof.Machine
end

section
/-! The result of a whole scan: SETINK, SETLIM, SCAN on any grid, and the encode contract over it (42_pack.md R89,
44_host_formatter.md R122 to R126). -/

namespace Sys2Proof.Machine

/-! ### END after the last row -/

/-- The grid's whole tiles are emitted, and END has counted the rows left over (R89 (a)). -/
structure ScanDone (s₀ : State) (h : Nat) (t : State) : Prop where
  out : t.out = s₀.out ++ (List.range (h / 8)).map (gridTile s₀.ink s₀.grid)
  status : t.status = { fault := false, fcode := .noFault, ptd := decide (h % 8 ≠ 0),
                        ptdrows := BitVec.ofNat 3 (h % 8), done := true }
  tileidx : t.tileidx.toNat = h / 8
  rowcnt : t.rowcnt = 0#3

/-- STATUS after END: DONE, and the rows dropped with PTD exactly where there are any (R104). -/
theorem setDone_dropPartialTile_status {s : State} (hs : s.status = Status.clear) :
    (setDone (dropPartialTile s)).status
      = { fault := false, fcode := .noFault, ptd := decide (s.rowcnt ≠ 0#3), ptdrows := s.rowcnt, done := true } := by
  by_cases hr : s.rowcnt = 0#3
  · rw [dropPartialTile_of_empty hr, setDone_status, hs, hr]
    rfl
  · rw [dropPartialTile_of_rows hr, setDone_status, emptyBuffer_status, hs, decide_eq_true hr]
    rfl

theorem dropPartialTile_out (s : State) : (dropPartialTile s).out = s.out := by
  unfold dropPartialTile
  split <;> rfl

/-- END after h rows: TILEIDX has counted the whole tiles, ROWCNT the rest. -/
theorem Scanned.scanDone {s₀ s : State} {h : Nat} (hscan : Scanned s₀ h s) :
    ScanDone s₀ h (setDone (dropPartialTile s)) := by
  have hpos := hscan.position_eq
  have hrow := s.rowcnt.isLt
  have htiles : s.tileidx.toNat = h / 8 := by omega
  have hrest : s.rowcnt = BitVec.ofNat 3 (h % 8) := by
    apply BitVec.eq_of_toNat_eq
    rw [BitVec.toNat_ofNat]
    omega
  have hzero : s.rowcnt ≠ 0#3 ↔ h % 8 ≠ 0 := by
    rw [Ne, ← BitVec.toNat_inj, BitVec.toNat_ofNat]
    omega
  obtain ⟨hcleared, hkept⟩ := dropPartialTile_counters s
  refine ⟨?_, ?_, ?_, hcleared⟩
  · rw [setDone_out, dropPartialTile_out, hscan.emitted, htiles]
  · rw [setDone_dropPartialTile_status hscan.status, decide_eq_decide.2 hzero, hrest]
  · rw [setDone_tileidx, hkept, htiles]

/-- R89 (a): with a label for every whole tile the run ends with DONE. -/
theorem issue_encodeWords_scanDone (ink : Pixel) (n : BitVec 16) (h : Nat) (s : State) (hw : 8 ≤ s.grid.width)
    (hh : h ≤ s.grid.height) (hn : h / 8 ≤ n.toNat) :
    ∃ t, issue (encodeWords ink n h) s = .next t ∧ ScanDone { s with ink := ink, limit := n } h t := by
  have hstart := scanned_beginRun { s with ink := ink, limit := n }
  obtain ⟨u, hu, hscan⟩ := hstart.rows hw h (by show 0 + h ≤ s.grid.height; omega)
    (by show 0 + h < 8 * (n.toNat + 1); omega)
  rw [Nat.zero_add] at hscan
  refine ⟨_, ?_, hscan.scanDone⟩
  rw [issue_encodeWords, issue_append_of_next hu, issue_singleton, acceptWord_endRun,
    exec_endRun_of_running hscan.running]

/-! ### Uniform rows -/

/-- On an admitted row `gridRow` has what the grid reads as (R46). -/
theorem read_eq_gridRow {g : Grid} {y : Nat} (hw : 8 ≤ g.width) (hy : y < g.height) (x : Fin 8) :
    g.read x.val y = some (gridRow g y)[x] := by
  have hadmits : g.admits x.val y = true := by
    simp only [Grid.admits, Bool.and_eq_true, decide_eq_true_eq]
    exact ⟨Nat.lt_of_lt_of_le x.isLt hw, hy⟩
  rw [Grid.read, if_pos hadmits]
  simp [gridRow]

/-- A tile whose eight rows all give one byte. -/
theorem gridTile_of_rows {ink : Pixel} {g : Grid} {i : Nat} {b : Byte}
    (h : ∀ k : Fin 8, pack8 ink (gridRow g (8 * i + k.val)) = b) :
    gridTile ink g i = { idx := BitVec.ofNat 16 i, b := Vector.replicate 8 b } := by
  rw [gridTile, Tile.mk.injEq]
  refine ⟨rfl, ?_⟩
  ext1 k hk
  rw [Vector.getElem_ofFn, Vector.getElem_replicate]
  exact h ⟨k, hk⟩

/-- Whole tiles whose rows all give one byte. -/
theorem map_gridTile_of_rows {ink : Pixel} {g : Grid} {h : Nat} {b : Byte}
    (hrows : ∀ y, y < h → pack8 ink (gridRow g y) = b) :
    (List.range (h / 8)).map (gridTile ink g)
      = (List.range (h / 8)).map (fun i => { idx := BitVec.ofNat 16 i, b := Vector.replicate 8 b }) := by
  refine List.map_congr_left fun i hi => gridTile_of_rows fun k => hrows _ ?_
  have := List.mem_range.1 hi
  omega

/-! ### The scan that finds no label -/

/-- R89 (b): before the row that needs label number n the run has recorded nothing; that row raises OutOfLabels, and
the whole run ends where the row ends. -/
theorem issue_encodeWords_stopsAtRow (ink : Pixel) (n : BitVec 16) (h : Nat) (s : State) (hw : 8 ≤ s.grid.width)
    (hh : h ≤ s.grid.height) (hn : n.toNat < h / 8) :
    ∃ u, issue ([encode (.setInk ink), encode (.setLim n), encode .start]
          ++ (List.replicate (8 * n.toNat + 7) rowWords).flatten) s = .next u
      ∧ Scanned { s with ink := ink, limit := n } (8 * n.toNat + 7) u ∧ u.tileidx = n
      ∧ issue rowWords u = .next (outOfLabels (withNextRow u))
      ∧ issue (encodeWords ink n h) s = .next (outOfLabels (withNextRow u)) := by
  have hstart := scanned_beginRun { s with ink := ink, limit := n }
  obtain ⟨u, hu, hscan⟩ := hstart.rows hw (8 * n.toNat + 7) (by show _ ≤ s.grid.height; omega)
    (by show _ < 8 * (n.toNat + 1); omega)
  rw [Nat.zero_add] at hscan
  obtain ⟨htile, hlast⟩ := hscan.row_outOfLabels hw (by show _ < s.grid.height; omega) rfl
  have hbegin : issue [encode (.setInk ink), encode (.setLim n), encode .start] s
      = .next (beginRun { s with ink := ink, limit := n }) := by
    rw [issue_cons_of_next (acceptWord_setInk ink s), issue_cons_of_next (acceptWord_setLim n _), issue_singleton,
      acceptWord_start]
  have hsplit : List.replicate h rowWords
      = List.replicate (8 * n.toNat + 7) rowWords ++ rowWords :: List.replicate (h - (8 * n.toNat + 8)) rowWords := by
    rw [← List.replicate_succ, List.replicate_append_replicate]
    congr 1
    omega
  refine ⟨u, (issue_append_of_next hbegin _).trans hu, hscan, htile, hlast, ?_⟩
  rw [issue_encodeWords, hsplit, List.flatten_append, List.flatten_cons, List.append_assoc, issue_append_of_next hu,
    List.append_assoc, issue_append_of_next hlast]
  exact issue_scanRest_of_stopped (stopped_outOfLabels _) _

/-- Settles O46: either the run reaches its END, or it stops at the row that finds no label. -/
theorem scanRunResult : Obligations.ScanRunResult := by
  intro s ink n h hw hh
  rcases Nat.lt_or_ge n.toNat (h / 8) with hlack | henough
  · obtain ⟨u, hu, hscan, htile, hlast, hissue⟩ := issue_encodeWords_stopsAtRow ink n h s hw hh hlack
    refine ⟨outOfLabels (withNextRow u), hissue, fun henough => absurd hlack (Nat.not_lt.2 henough), fun _ => ?_⟩
    have hout : (outOfLabels (withNextRow u)).out = s.out ++ (List.range n.toNat).map (gridTile ink s.grid) := by
      rw [← htile]
      exact hscan.emitted
    have hstatus : (outOfLabels (withNextRow u)).status = { u.status with fault := true, fcode := .outOfLabels } := rfl
    have hinfo : (outOfLabelsInfo u.tileidx).toNat = n.toNat := by
      rw [htile, outOfLabelsInfo, BitVec.toNat_setWidth]
      omega
    rw [hscan.status] at hstatus
    exact ⟨hout, hstatus, hinfo, htile, rfl, u, hu, hscan.status, hlast⟩
  · obtain ⟨t, hissue, hdone⟩ := issue_encodeWords_scanDone ink n h s hw hh henough
    refine ⟨t, hissue, fun _ => ⟨hdone.out, hdone.status, hdone.tileidx, hdone.rowcnt, fun _ hnone => ?_,
      fun _ hall => ?_⟩, fun hlack => absurd hlack (Nat.not_lt.2 henough)⟩
    · have hrows : ∀ y, y < h → pack8 ink (gridRow s.grid y) = 0#8 := fun y hy =>
        (rowByteExtremes ink _).2.2 fun x hx =>
          hnone x y hy ((read_eq_gridRow hw (Nat.lt_of_lt_of_le hy hh) x).trans (congrArg some hx))
      exact hdone.out.trans (congrArg (s.out ++ ·) (map_gridTile_of_rows hrows))
    · have hrows : ∀ y, y < h → pack8 ink (gridRow s.grid y) = 255#8 := fun y hy =>
        (rowByteExtremes ink _).1.2 fun x =>
          Option.some.inj ((read_eq_gridRow hw (Nat.lt_of_lt_of_le hy hh) x).symm.trans (hall x y hy))
      exact hdone.out.trans (congrArg (s.out ++ ·) (map_gridTile_of_rows hrows))

/-! ### The encode contract -/

/-- With fewer than eight columns the first row is refused, and the rest of the run is dropped (R138, R142). -/
theorem issue_scanRest_of_narrow {s : State} (hs : s.stopped = false) (hw : s.grid.width < 8) (k : Nat) :
    issue ((List.replicate (k + 1) rowWords).flatten ++ [encode .endRun]) s
      = .next (raise .gridRange (gridRangeInfo (scanPos s) 7) s) := by
  have hload : acceptWord (encode .ldRow) s = .next (raise .gridRange (gridRangeInfo (scanPos s) 7) s) := by
    rw [acceptWord_ldRow, exec_ldRow_of_running hs,
      loadRow_of_error (fetchRow_of_notAdmitted fun hin => Nat.not_le.2 hw hin.1)]
  have hpack : ∀ {t : State}, t.stopped = true → acceptWord (encode .pack) t = .next t := fun ht =>
    (acceptWord_pack _).trans (exec_of_stopped ht (by simp) (by simp) (by simp))
  rw [List.replicate_succ, List.flatten_cons, List.append_assoc, rowWords, List.cons_append,
    issue_cons_of_next hload, List.singleton_append, issue_cons_of_next (hpack (stopped_raise _ _ _))]
  exact issue_scanRest_of_stopped (stopped_raise _ _ _) k

/-- A whole run on such a grid records GridRange at its first row (R126). -/
theorem issue_encodeWords_gridRange (ink : Pixel) (n : BitVec 16) {h : Nat} {s : State} (hw : s.grid.width < 8)
    (hh : 0 < h) :
    ∃ t, issue (encodeWords ink n h) s = .next t ∧ t.status.fault = true ∧ t.status.fcode = .gridRange := by
  obtain ⟨k, rfl⟩ := Nat.exists_eq_succ_of_ne_zero hh.ne'
  have hrun := stopped_beginRun { s with ink := ink, limit := n }
  exact ⟨_, (issue_encodeWords ink n (k + 1) s).trans (issue_scanRest_of_narrow hrun hw k), rfl, rfl⟩

/-- Without a fault the host has the lines of the records since the run began, and the warning (R122, R125). -/
theorem encodeResult_of_lines {p : FormatParams} {labels : List Text} {s₀ s : State} {records : List Tile}
    {ls : List Text} (hfault : s.status.fault = false) (hout : s.out = s₀.out ++ records)
    (hls : runLines p labels records = some ls) :
    encodeResult p labels s₀.out.length s = .lines ls (if s.status.ptd then some s.status.ptdrows else none) := by
  have hrecords : s.out.drop s₀.out.length = records := by rw [hout, List.drop_left]
  rw [encodeResult, if_neg (by simp [hfault]), if_neg (by simp [hfault]), hrecords, hls]

/-- What `encode` returns where its words are all accepted (R122). -/
theorem hostEncode_of_issue {p : FormatParams} {g : Grid} {ink : Pixel} {labels : List Text} {s t : State}
    (hlabels : labels.length ≤ 65535)
    (h : issue (encodeWords ink (BitVec.ofNat 16 labels.length) g.height) { s with grid := g } = .next t) :
    (hostEncode p g ink labels s).1 = encodeResult p labels s.out.length t := by
  rw [hostEncode, if_neg (Nat.not_lt.2 hlabels), h]

/-- Every whole tile of the grid has a label where there are as many labels as tiles (R120). -/
theorem runLines_gridTiles_isSome (p : FormatParams) (g : Grid) (ink : Pixel) {labels : List Text} {tiles : Nat}
    (hlabels : labels.length ≤ 65535) (htiles : tiles ≤ labels.length) :
    ∃ ls, runLines p labels ((List.range tiles).map (gridTile ink g)) = some ls := by
  refine runLines_isSome fun r hr => ?_
  obtain ⟨i, hi, rfl⟩ := List.mem_map.1 hr
  have hlt := List.mem_range.1 hi
  have hindex : (gridTile ink g i).idx.toNat = i := Nat.mod_eq_of_lt (by omega)
  rw [hindex]
  omega

/-- Settles O58: the run stops at the tile without a label, reaches its END, or stops at its first row. -/
theorem encodeContract : Obligations.EncodeContract := by
  intro p g ink labels s hlabels
  refine ⟨fun hw hlack => hostEncode_outOfLabels p g ink labels s hlabels hlack hw, fun hw henough => ?_,
    fun hw hh => ?_⟩
  · have hcount : (BitVec.ofNat 16 labels.length).toNat = labels.length := Nat.mod_eq_of_lt (by omega)
    obtain ⟨t, hissue, hdone⟩ := issue_encodeWords_scanDone ink (BitVec.ofNat 16 labels.length) g.height
      { s with grid := g } hw (Nat.le_refl _) (by rwa [hcount])
    obtain ⟨ls, hls⟩ := runLines_gridTiles_isSome p g ink hlabels henough
    have hfault : t.status.fault = false := by rw [hdone.status]
    refine ⟨ls, hls, ?_⟩
    rw [hostEncode_of_issue hlabels hissue, encodeResult_of_lines (s₀ := s) hfault hdone.out hls, hdone.status]
    by_cases hrest : g.height % 8 = 0
    · simp [hrest]
    · simp [hrest]
  · obtain ⟨t, hissue, hfault, hcode⟩ := issue_encodeWords_gridRange ink (BitVec.ofNat 16 labels.length)
      (s := { s with grid := g }) hw hh
    rw [hostEncode_of_issue hlabels hissue]
    simp [encodeResult, hfault, hcode]

end Sys2Proof.Machine
end
